-- ==== Sys2Proof/Word.lean ====
section
/-! DEFINITION. The word, the byte, the bit and the sequences of 00_scope.md R6, R9 and R11. -/

namespace Sys2Proof

/-- A host register, a histogram counter, a node weight or a command word: 32 bits (R6, `REG_W` and `CNT_W`). -/
abbrev Word := BitVec 32

/-- A symbol, or one byte of the buffer memory: 8 bits (R6, `SYM_BITS`). -/
abbrev Byte := BitVec 8

/-- A sequence of bits, first bit first (R11). `false` is the bit 0 (left), `true` the bit 1 (right). -/
abbrev Codeword := List Bool

/-- A sequence of bytes (R11). -/
abbrev Text := List Byte

end Sys2Proof
end

