-- ==== Sys2Proof/Config.lean ====
section
/-! DEFINITION. The parameters of one HCB (00_scope.md R6), the platform's bases (20_memory.md R50),
and the free values: what the spec leaves unspecified, constants without a body. -/

namespace Sys2Proof

/-- `P_SYM_ORDER`: how "symbol value ascending" compares two bytes (R6, R111). -/
inductive SymOrder where
  | unsigned
  | signed
deriving DecidableEq, Repr

/-- The parameters the block's behaviour depends on (R6). State carries them unchanged (log 1). -/
structure Config where
  /-- `MEM_BYTES`: the buffer's size in bytes. -/
  memBytes    : Nat
  /-- `P_SYM_ORDER`. -/
  symOrder    : SymOrder
  /-- `P_INTERNAL_KEY`: the tie-break key of an internal node. -/
  internalKey : Int
deriving DecidableEq, Repr

/-- The spec's default of each parameter that has one (R6). -/
def Config.standard : Config := { memBytes := 65536, symOrder := .unsigned, internalKey := 0 }

/-- `REG_BASE` and `BUF_BASE`: where the platform places the two spaces (R6, R50).
The spec gives no default, so the bus map takes them as an argument (log 15). -/
structure Platform where
  regBase : Nat
  bufBase : Nat
deriving DecidableEq, Repr

/-- FREE VALUE (R46, R220, U10). The byte that buffer address `a` holds after the `n`-th power-on reset,
until it is written. Unspecified: no proof can see a value of it (log 4). -/
opaque Config.powerOnByte (n a : Nat) : Byte

/-- FREE VALUE (R29, U11). The word from which the `n`-th unspecified read takes its unspecified bits,
when that read is a register read made while busy (log 3). -/
opaque Config.freeWord (n : Nat) : Word

/-- FREE VALUE (R52, U12). The byte that the `n`-th unspecified read returns, when that read is a
buffer read made while busy (log 3). -/
opaque Config.freeByte (n : Nat) : Byte

end Sys2Proof
end

