-- ==== Sys2Proof/Syntax.lean ====
section
/-! DEFINITION. The eight commands of spec/opcode_table.json (30_encoding.md R73), one constructor a row. -/

namespace Sys2Proof

/-- A command. The only explicit operand is the symbol SYM of RDCODE and RDFREQ (R72);
every other operand is implicit (R77). -/
inductive Instr where
  /-- Do nothing (R180). -/
  | nop
  /-- Return the core to the fresh state (R182). -/
  | reset
  /-- Build the histogram of a text (R92). -/
  | count
  /-- Build the tree and the code table from the histogram (R120). -/
  | build
  /-- Count, build and encode a text (R152). -/
  | encode
  /-- Decode a bitstring with the held tree (R155). -/
  | decode
  /-- Write one codeword (R122). -/
  | rdcode (sym : Byte)
  /-- Read one histogram counter (R94). -/
  | rdfreq (sym : Byte)
deriving DecidableEq, Repr

end Sys2Proof
end

