-- ==== Sys2Proof/WellFormed.lean ====
section
/-! DEFINITION. What is well formed: a configuration within the bounds of 00_scope.md R6, a platform whose two
spaces do not overlap (20_memory.md R50), an instruction. -/

namespace Sys2Proof

/-- The bounds of R6: 1 ≤ MEM_BYTES ≤ 2^24, and P_INTERNAL_KEY in −128..255.
A model must reject any other configuration (93_implementation_defined.md U5). -/
def Config.wf (c : Config) : Bool :=
  decide (1 ≤ c.memBytes) && decide (c.memBytes ≤ 2 ^ 24)
    && decide (-128 ≤ c.internalKey) && decide (c.internalKey ≤ 255)

/-- The register window's 256 bytes and the buffer's `MEM_BYTES` bytes share no bus address (R50). -/
def Platform.wf (p : Platform) (c : Config) : Bool :=
  decide (p.regBase + 256 ≤ p.bufBase) || decide (p.bufBase + c.memBytes ≤ p.regBase)

/-- Every term of `Instr` is well formed: SYM is a byte by its type, and any of its 256 values may stand in
RDCODE and RDFREQ (R72). -/
def Instr.wf : Instr → Bool
  | .nop => true
  | .reset => true
  | .count => true
  | .build => true
  | .encode => true
  | .decode => true
  | .rdcode _ => true
  | .rdfreq _ => true

end Sys2Proof
end

