-- ==== Sys2Proof/Decode.lean ====
section
/-! DEFINITION. The command word: its fields, the decoder (total, rejecting by name), the encoder and the opcode
table (30_encoding.md R70 to R76, R80). -/

namespace Sys2Proof

/-- OP, bits 7:0 (R71). -/
def cmdOp (w : Word) : Byte := w.extractLsb' 0 8

/-- SYM, bits 15:8, an unsigned byte without extension or shift (R71, R72). -/
def cmdSym (w : Word) : Byte := w.extractLsb' 8 8

/-- RSV, bits 31:16 (R71). -/
def cmdRsv (w : Word) : BitVec 16 := w.extractLsb' 16 16

/-- Why a command word is illegal (R75). -/
inductive IllegalWord where
  /-- RSV ≠ 0. -/
  | rsvNonzero
  /-- SYM ≠ 0 with OP in 0x00 to 0x05. -/
  | symNonzero
  /-- OP in 0x08 to 0xFF. -/
  | reservedOpcode
deriving DecidableEq, Repr

/-- What the decoder answers. -/
inductive Decoded where
  | instr (i : Instr)
  | illegal (why : IllegalWord)
deriving DecidableEq, Repr

/-- An opcode without a symbol operand needs SYM = 0 (R74). -/
def decodeFixed (i : Instr) (w : Word) : Decoded :=
  if cmdSym w = 0 then .instr i else .illegal .symNonzero

/-- The decode function of R74, total on every 32-bit word; it reads nothing but the word (R76). -/
def decode (w : Word) : Decoded :=
  if cmdRsv w ≠ 0 then .illegal .rsvNonzero
  else
    match (cmdOp w).toNat with
    | 0 => decodeFixed .nop w
    | 1 => decodeFixed .reset w
    | 2 => decodeFixed .count w
    | 3 => decodeFixed .build w
    | 4 => decodeFixed .encode w
    | 5 => decodeFixed .decode w
    | 6 => .instr (.rdcode (cmdSym w))
    | 7 => .instr (.rdfreq (cmdSym w))
    | _ => .illegal .reservedOpcode

/-- The words of R75, said without the decoder: RSV = 0, OP below 0x08, and SYM = 0 unless OP is 0x06 or 0x07. -/
def legalWord (w : Word) : Bool :=
  decide (cmdRsv w = 0) && decide ((cmdOp w).toNat < 8)
    && (decide (cmdSym w = 0) || decide (6 ≤ (cmdOp w).toNat))

/-- The command word with the given OP and SYM, and RSV = 0 (R71). -/
def commandWord (op sym : Byte) : Word := 0#16 ++ sym ++ op

/-- The command word of each command (R73, R80). -/
def encode : Instr → Word
  | .nop => commandWord 0x00 0
  | .reset => commandWord 0x01 0
  | .count => commandWord 0x02 0
  | .build => commandWord 0x03 0
  | .encode => commandWord 0x04 0
  | .decode => commandWord 0x05 0
  | .rdcode s => commandWord 0x06 s
  | .rdfreq s => commandWord 0x07 s

/-- A row of spec/opcode_table.json: a word `w` matches when `w &&& mask = value`. -/
structure OpcodeRow where
  mnemonic : String
  mask     : Word
  value    : Word
deriving DecidableEq, Repr

/-- spec/opcode_table.json, row by row. -/
def opcodeTable : List OpcodeRow :=
  [ ⟨"NOP",    0xFFFFFFFF, 0x00000000⟩,
    ⟨"RESET",  0xFFFFFFFF, 0x00000001⟩,
    ⟨"COUNT",  0xFFFFFFFF, 0x00000002⟩,
    ⟨"BUILD",  0xFFFFFFFF, 0x00000003⟩,
    ⟨"ENCODE", 0xFFFFFFFF, 0x00000004⟩,
    ⟨"DECODE", 0xFFFFFFFF, 0x00000005⟩,
    ⟨"RDCODE", 0xFFFF00FF, 0x00000006⟩,
    ⟨"RDFREQ", 0xFFFF00FF, 0x00000007⟩ ]

/-- The rows a word matches (R74). -/
def matchingRows (w : Word) : List OpcodeRow :=
  opcodeTable.filter fun r => decide (w &&& r.mask = r.value)

/-- The name a command has in spec/opcode_table.json. -/
def mnemonic : Instr → String
  | .nop => "NOP"
  | .reset => "RESET"
  | .count => "COUNT"
  | .build => "BUILD"
  | .encode => "ENCODE"
  | .decode => "DECODE"
  | .rdcode _ => "RDCODE"
  | .rdfreq _ => "RDFREQ"

/-- The instruction this decoder reads from a word whose `nbits` table bits are `w` (every command has 32). -/
def decodeTableWord (nbits w : Nat) : Option Instr :=
  match decode (BitVec.ofNat 32 (w % 2 ^ nbits)) with
  | .instr i => some i
  | .illegal _ => none

end Sys2Proof
end

