-- ==== Sys2Proof/Machine/State.lean ====
section
/-! DEFINITION. The machine's state (10_state.md R20), what the host can do to it, and the state after reset (R46). -/

namespace Sys2Proof.Machine

/-- A node of the tree (R20, R38): a leaf holds a symbol and its weight, an internal node the combined weight of its
two children and their arena indices. -/
inductive Node where
  | leaf (w : Word) (sym : Byte)
  | internal (w : Word) (left right : Nat)
deriving DecidableEq, Repr

/-- The held tree (R38): the nodes in creation order, and the index of the root. -/
structure HeldTree where
  arena : List Node
  root  : Nat
deriving DecidableEq, Repr

/-- The FrequencyTable: 256 counters, one per byte value (R37). -/
abbrev Hist := Vector Word 256

/-- The CodeTable: 256 entries, one per byte value (R42). -/
abbrev CodeTable := Vector (Option Codeword) 256

/-- The buffer memory (20_memory.md R50): the bytes written since the last power-on reset, as (address, byte) pairs
with strictly rising addresses. An unlisted address has no value of its own; it reads as the free value
`Config.powerOnByte` (log 4). -/
abbrev Memory := List Host.Cell

/-- The registers of the window (R22). -/
inductive Reg where
  | id | cmd | status | src | len | dst | result | nsym | total | nleaf | memsize
deriving DecidableEq, Repr

/-- One access of the host: to the register window at an offset 0x00 to 0xFF with a size in bytes (R22, R23),
or to one byte of the buffer (20_memory.md R51). -/
inductive HostAccess where
  | regRead  (offset : Byte) (size : Nat)
  | regWrite (offset : Byte) (size : Nat) (value : Word)
  | bufRead  (addr : Nat)
  | bufWrite (addr : Nat) (value : Byte)
deriving DecidableEq, Repr

/-- One event of the total order of 20_memory.md R62: an access of the host, the block's turn (it completes the
accepted command, 60_exceptions.md R196), or a power-on reset (70_reset_and_hazards.md R220). -/
inductive Event where
  | host (a : HostAccess)
  | block
  | powerOn
deriving DecidableEq, Repr

/-- A value a host read returned (70_reset_and_hazards.md R235). -/
inductive Seen where
  | word (v : Word)
  | byte (v : Byte)
deriving DecidableEq, Repr

/-- The completion codes other than OK (60_exceptions.md R191). -/
inductive CmdError where
  | illegal
  | srcRange
  | dstRange
  | overlap
deriving DecidableEq, Repr

/-- The reasons the machine stops with a fault: none. The HCB has no trap and no condition that stops it
(60_exceptions.md R197), and no command can hang (70_reset_and_hazards.md R226); an error is a completion code
in `STATUS.ERR` (log 14). -/
inductive Fault where
deriving DecidableEq, Repr

/-- The reasons the model gives a step no meaning (log 7). -/
inductive Refusal where
  /-- Raised by an arm of `exec` whose instruction has no meaning yet. Safe. No arm raises it. -/
  | notModelled (mnemonic : String)
  /-- Raised by `step` when the configuration breaks the bounds of R6 (93_implementation_defined.md U5: "A model must
  reject a configuration"). Safe: nothing is proved of such a machine. -/
  | configNotAdmitted
  /-- Raised by a host write to the buffer while a command is busy: its effect is undefined, and the spec says a model
  refuses it (20_memory.md R52, U13). Safe. -/
  | bufferWriteWhileBusy
  /-- Raised by a host access to `BUF_BASE + a` with `a ≥ MEM_BYTES`: not an HCB access, and the spec says a model
  refuses it (20_memory.md R51, U14). Safe. -/
  | outsideBuffer
deriving DecidableEq, Repr

/-- The state of one HCB. From `src` to `mem` it is the record of R20, field by field; `cfg` is the configuration,
carried unchanged (log 1); `powerOns`, `draws`, `events` and `seen` are the model's own (logs 2, 3, 4 and 12). -/
structure State where
  /-- The parameters of 00_scope.md R6. No step changes them. -/
  cfg      : Config
  /-- `SRC` (R30). -/
  src      : Word
  /-- `LEN` (R31). -/
  len      : Word
  /-- `DST` (R32). -/
  dst      : Word
  /-- `RESULT` (R33). -/
  result   : Word
  /-- `STATUS.ERR` (R27). -/
  err      : BitVec 4
  /-- `STATUS.DROP` (R28). -/
  drop     : Bool
  /-- The accepted, not yet completed command word (R25, R26). -/
  busy     : Option Word
  /-- The histogram (R37). -/
  hist     : Hist
  /-- The held tree (R38). -/
  tree     : Option HeldTree
  /-- The code table of the held tree (R42). -/
  code     : CodeTable
  /-- The buffer memory (20_memory.md R50). -/
  mem      : Memory
  /-- MODEL: the number of power-on resets so far; selects the buffer's free contents (log 4). -/
  powerOns : Nat
  /-- MODEL: the number of unspecified reads so far; selects the next free value (log 3). -/
  draws    : Nat
  /-- MODEL: the events still to come, in order (log 2). -/
  events   : List Event
  /-- MODEL: the values the host's reads returned, oldest first (log 12). -/
  seen     : List Seen
deriving DecidableEq, Repr

/-- The empty FrequencyTable (R37). -/
def noCounts : Hist := Vector.replicate 256 0

/-- The code table when no tree is held (R42). -/
def noCodes : CodeTable := Vector.replicate 256 none

/-- The state right after power-on reset (R46, 70_reset_and_hazards.md R220), with the default parameters of R6
and nothing scheduled. -/
def State.reset : State where
  cfg      := Config.standard
  src      := 0
  len      := 0
  dst      := 0
  result   := 0
  err      := 0
  drop     := false
  busy     := none
  hist     := noCounts
  tree     := none
  code     := noCodes
  mem      := []
  powerOns := 0
  draws    := 0
  events   := []
  seen     := []

end Sys2Proof.Machine
end

