-- ==== Sys2Proof/Machine/Ops.lean ====
section
/-! DEFINITION. The named operations over memory, registers and tables, and the three points of a command's life:
acceptance, completion and the raising of an error (60_exceptions.md R193, R196). -/

namespace Sys2Proof.Machine

/-- The bytes 0x00 to 0xFF in ascending unsigned order. -/
def allBytes : List Byte := (List.range 256).map (BitVec.ofNat 8)

/-! ### Tables indexed by a byte -/

/-- `hist[s]`, indexed by the unsigned byte value (R12, 30_encoding.md R72). -/
def histAt (h : Hist) (s : Byte) : Word := h[s.toNat]'(s.isLt)

/-- `code[s]` (R12, 30_encoding.md R72). -/
def codeAt (tbl : CodeTable) (s : Byte) : Option Codeword := tbl[s.toNat]'(s.isLt)

/-- `code[s] := some(p)` (41_tree_builder.md R117). -/
def codeSet (tbl : CodeTable) (s : Byte) (p : Codeword) : CodeTable := tbl.set s.toNat (some p) s.isLt

/-! ### The buffer memory -/

/-- The byte written at address `a` since the last power-on reset, if any. -/
def Memory.read : Memory → Nat → Option Byte
  | [], _ => none
  | (b, v) :: m, a => if a = b then some v else Memory.read m a

/-- `MemWrite(a, 1, v)` (R12): the entry of `a` becomes `v`; the addresses stay strictly rising. -/
def Memory.write : Memory → Nat → Byte → Memory
  | [], a, v => [(a, v)]
  | (b, w) :: m, a, v =>
    if a < b then (a, v) :: (b, w) :: m
    else if a = b then (a, v) :: m
    else (b, w) :: Memory.write m a v

/-- The one canonical form: addresses strictly rising. (An unlisted address has no value, so no entry can equal it.) -/
abbrev Memory.wf (m : Memory) : Prop := m.Pairwise fun p q => p.1 < q.1

/-- `MemRead(a, 1)` (R12): the byte at buffer address `a`. A byte nothing has written since the last power-on reset is
the free draw of R46, the same at every read until it is written. -/
def State.readByte (s : State) (a : Nat) : Byte :=
  (Memory.read s.mem a).getD (Config.powerOnByte s.powerOns a)

/-- `ReadText(a, n)` (R12). -/
def readText (s : State) (a n : Nat) : Text := (List.range n).map fun i => s.readByte (a + i)

/-- `WriteText(a, t)` (R12). -/
def writeText (m : Memory) (a : Nat) : Text → Memory
  | [] => m
  | b :: t => writeText (Memory.write m a b) (a + 1) t

/-! ### The life of a command -/

/-- Acceptance (R25, 60_exceptions.md R196 (1)): `busy <- some(word)` and `DROP <- 0`. -/
def acceptCommand (s : State) (w : Word) : State := { s with busy := some w, drop := false }

/-- Normal completion with a result (00_scope.md R13, 60_exceptions.md R196 (3)): `RESULT <- r`, `ERR <- 0`,
`busy <- none`. -/
def complete (s : State) (r : Word) : State := { s with result := r, err := 0, busy := none }

/-- The code of an error (60_exceptions.md R191). -/
def CmdError.code : CmdError → BitVec 4
  | .illegal => 1
  | .srcRange => 2
  | .dstRange => 3
  | .overlap => 4

/-- `RESULT <- r; raise CmdError(e)` (00_scope.md R13, 60_exceptions.md R193): the one shared operation by which a command
ends in an error. It writes `ERR`, `RESULT` and `busy` and nothing else; the HCB has no other exception (R197). -/
def raiseCmdError (s : State) (e : CmdError) (r : Word) : State :=
  { s with result := r, err := e.code, busy := none }

/-- Power-on reset (70_reset_and_hazards.md R220, R221): the record of R20 takes the values of R46, whatever was busy;
the buffer takes new free contents. The configuration and the model's own bookkeeping stay (log 11). -/
def powerOnReset (s : State) : State :=
  { State.reset with
    cfg := s.cfg, powerOns := s.powerOns + 1, draws := s.draws, events := s.events, seen := s.seen }

end Sys2Proof.Machine
end

