-- ==== Sys2Proof/Machine/Flags.lean ====
section
/-! DEFINITION. The STATUS word and the derived registers (10_state.md R20, R26, R34 to R36). -/

namespace Sys2Proof.Machine

/-- `STATUS` (R26): BUSY bit 0, TREE_VALID bit 1, ERR bits 7:4, DROP bit 8, every other bit 0. -/
def statusWord (busy treeValid : Bool) (err : BitVec 4) (drop : Bool) : Word :=
  0#23 ++ BitVec.ofBool drop ++ err ++ 0#2 ++ BitVec.ofBool treeValid ++ BitVec.ofBool busy

/-- `NSYM` (R34): the number of keys of the FrequencyTable, that is of non-zero counters. -/
def nsym (h : Hist) : Nat := h.toList.countP fun w => decide (w ≠ 0)

/-- `TOTAL` (R35): the sum of the counters, as an exact integer. -/
def total (h : Hist) : Nat := (h.toList.map BitVec.toNat).sum

/-- The symbols of an arena's leaves, in arena order. -/
def leafSyms (arena : List Node) : List Byte :=
  arena.filterMap fun
    | .leaf _ b => some b
    | .internal _ _ _ => none

/-- `NLEAF` (R36): 0 without a tree, else the number of its leaves. -/
def nleaf : Option HeldTree → Nat
  | none => 0
  | some t => (leafSyms t.arena).length

/-- The value a register reads while the block is idle (R24 to R36). -/
def regValue (s : State) : Reg → Word
  | .id => 0x48554631
  | .cmd => 0
  | .status => statusWord s.busy.isSome s.tree.isSome s.err s.drop
  | .src => s.src
  | .len => s.len
  | .dst => s.dst
  | .result => s.result
  | .nsym => BitVec.ofNat 32 (nsym s.hist)
  | .total => BitVec.ofNat 32 (total s.hist)
  | .nleaf => BitVec.ofNat 32 (nleaf s.tree)
  | .memsize => BitVec.ofNat 32 s.cfg.memBytes

/-- The value a register reads while a command is busy (R29): BUSY, DROP, SRC, LEN, DST, ID, MEMSIZE and CMD as they
are; RESULT, NSYM, TOTAL, NLEAF, TREE_VALID and ERR from the free word of this read. -/
def regValueBusy (s : State) (free : Word) : Reg → Word
  | .status => statusWord true (free.getLsbD 1) (free.extractLsb' 4 4) s.drop
  | .result => free
  | .nsym => free
  | .total => free
  | .nleaf => free
  | .id => regValue s .id
  | .cmd => regValue s .cmd
  | .src => regValue s .src
  | .len => regValue s .len
  | .dst => regValue s .dst
  | .memsize => regValue s .memsize

end Sys2Proof.Machine
end

