-- ==== Sys2Proof/Machine/Bus.lean ====
section
/-! DEFINITION. The host's side: the register window (10_state.md R22 to R36), the host's buffer accesses
(20_memory.md R51, R52), and the bus map of a platform (R50). -/

namespace Sys2Proof.Machine

/-! ### The register window -/

/-- The offset of a register (R22). -/
def Reg.offset : Reg → Byte
  | .id => 0x00
  | .cmd => 0x04
  | .status => 0x08
  | .src => 0x0C
  | .len => 0x10
  | .dst => 0x14
  | .result => 0x18
  | .nsym => 0x1C
  | .total => 0x20
  | .nleaf => 0x24
  | .memsize => 0x28

/-- The register at an offset; none at a reserved or misaligned one (R22, R23). -/
def regAt (offset : Byte) : Option Reg :=
  match offset.toNat with
  | 0x00 => some .id
  | 0x04 => some .cmd
  | 0x08 => some .status
  | 0x0C => some .src
  | 0x10 => some .len
  | 0x14 => some .dst
  | 0x18 => some .result
  | 0x1C => some .nsym
  | 0x20 => some .total
  | 0x24 => some .nleaf
  | 0x28 => some .memsize
  | _ => none

/-- The register an access reaches: only an aligned 32-bit access takes effect (R23(a)). -/
def accessedReg (offset : Byte) (size : Nat) : Option Reg :=
  if size = 4 ∧ offset.toNat % 4 = 0 then regAt offset else none

/-- The value a host read of the window returns: 0 where it reaches no register (R23(a), (b)). -/
def readWindow (s : State) (offset : Byte) (size : Nat) : Word :=
  match accessedReg offset size with
  | none => 0
  | some r => if s.busy.isSome then regValueBusy s (Config.freeWord s.draws) r else regValue s r

/-- A write to SRC, LEN or DST: while busy it is ignored and sets DROP (R23(e), R28). -/
def writeUnlessBusy (s written : State) : State :=
  if s.busy.isSome then { s with drop := true } else written

/-- A host write to a register (R23, R25, R28, R30 to R32). A read-only register ignores it (R23(c)). -/
def writeReg (s : State) (v : Word) : Reg → State
  | .cmd => writeUnlessBusy s (acceptCommand s v)
  | .src => writeUnlessBusy s { s with src := v }
  | .len => writeUnlessBusy s { s with len := v }
  | .dst => writeUnlessBusy s { s with dst := v }
  | .id => s
  | .status => s
  | .result => s
  | .nsym => s
  | .total => s
  | .nleaf => s
  | .memsize => s

/-- A host write to the window: ignored where it reaches no register (R23(a), (b)). -/
def writeWindow (s : State) (offset : Byte) (size : Nat) (v : Word) : State :=
  match accessedReg offset size with
  | none => s
  | some r => writeReg s v r

/-! ### Host accesses -/

/-- A host read returned `v`: the host has seen it, and nothing else changes (R23(d), R58(c)). A read made while busy
uses up a free value, so that two such reads are independent (R29, U11). -/
def logRead (s : State) (v : Seen) : State :=
  { s with seen := s.seen ++ [v], draws := if s.busy.isSome then s.draws + 1 else s.draws }

/-- The byte a host read of the buffer returns: unspecified while busy (20_memory.md R51, R52). -/
def hostByte (s : State) (a : Nat) : Byte :=
  if s.busy.isSome then Config.freeByte s.draws else s.readByte a

/-- One access of the host. -/
def hostAccess (s : State) : HostAccess → Host.Outcome State Fault Refusal
  | .regRead offset size => .next (logRead s (.word (readWindow s offset size)))
  | .regWrite offset size v => .next (writeWindow s offset size v)
  | .bufRead a =>
    if s.cfg.memBytes ≤ a then .refused .outsideBuffer
    else .next (logRead s (.byte (hostByte s a)))
  | .bufWrite a v =>
    if s.cfg.memBytes ≤ a then .refused .outsideBuffer
    else if s.busy.isSome then .refused .bufferWriteWhileBusy
    else .next { s with mem := Memory.write s.mem a v }

/-! ### The bus map of a platform -/

/-- The window offset of a bus address, if it lies in the register window (R22, R50). -/
def windowOffset (p : Platform) (addr : Nat) : Option Byte :=
  if p.regBase ≤ addr ∧ addr < p.regBase + 256 then some (BitVec.ofNat 8 (addr - p.regBase)) else none

/-- The buffer address of a bus address, if it lies in the buffer (R50, R51). -/
def bufferAddr (p : Platform) (c : Config) (addr : Nat) : Option Nat :=
  if p.bufBase ≤ addr ∧ addr < p.bufBase + c.memBytes then some (addr - p.bufBase) else none

/-- The HCB access that a bus read of `size` bytes at `addr` makes; none if it is not an HCB access. -/
def busRead (p : Platform) (c : Config) (addr size : Nat) : Option HostAccess :=
  match windowOffset p addr with
  | some off => some (.regRead off size)
  | none => if size = 1 then (bufferAddr p c addr).map .bufRead else none

/-- The HCB access that a bus write of `size` bytes at `addr` makes; none if it is not an HCB access. -/
def busWrite (p : Platform) (c : Config) (addr size : Nat) (v : Word) : Option HostAccess :=
  match windowOffset p addr with
  | some off => some (.regWrite off size v)
  | none =>
    if size = 1 then (bufferAddr p c addr).map fun a => .bufWrite a (v.extractLsb' 0 8) else none

end Sys2Proof.Machine
end

