-- ==== Sys2Proof/Machine/Operands.lean ====
section
/-! DEFINITION. The implicit operands of a command: the input text, the output region and the range predicates of
20_memory.md R61, all on unbounded integers. -/

namespace Sys2Proof.Machine

/-- The input of COUNT, ENCODE and DECODE: `ReadText(SRC, LEN)` (20_memory.md R54). Its value is the memory at
acceptance, which is the memory at the block's turn, since nothing can write the buffer in between (log 5). -/
def inputText (s : State) : Text := readText s s.src.toNat s.len.toNat

/-- `SrcInRange` (20_memory.md R61). -/
abbrev srcInRange (s : State) : Prop := s.len = 0 ∨ s.src.toNat + s.len.toNat ≤ s.cfg.memBytes

/-- `DstInRange(n)` (20_memory.md R61). -/
abbrev dstInRange (s : State) (n : Nat) : Prop := n = 0 ∨ s.dst.toNat + n ≤ s.cfg.memBytes

/-- `Overlap(n)` (20_memory.md R61). -/
abbrev overlap (s : State) (n : Nat) : Prop :=
  0 < s.len.toNat ∧ 0 < n ∧ s.src.toNat < s.dst.toNat + n ∧ s.dst.toNat < s.src.toNat + s.len.toNat

/-- The checks ENCODE and DECODE make on the exact length of their output, in the order of 60_exceptions.md R194. -/
def outputError (s : State) (n : Nat) : Option CmdError :=
  if ¬ dstInRange s n then some .dstRange
  else if overlap s n then some .overlap
  else none

/-- The commit of an output text: `WriteText(DST, out)` and `RESULT <- |out|` (42_codec.md R152, R155; log 10). -/
def commitOutput (s : State) (out : Text) : State :=
  complete { s with mem := writeText s.mem s.dst.toNat out } (BitVec.ofNat 32 out.length)

end Sys2Proof.Machine
end

