-- ==== Sys2Proof/Machine/Histogram.lean ====
section
/-! DEFINITION. The frequency histogram accumulator: COUNT and RDFREQ (40_histogram.md). -/

namespace Sys2Proof.Machine

/-- `h[b] := h[b] + 1`, one pass of the loop of R90. -/
def bump (h : Hist) (b : Byte) : Hist := h.set b.toNat (histAt h b + 1) b.isLt

/-- `count(t)` (R90): from all-zero counters, one more for each byte of the text, in input order. -/
def count (t : Text) : Hist := t.foldl bump noCounts

/-- COUNT (R92). -/
def execCount (s : State) : Host.Outcome State Fault Refusal :=
  if srcInRange s then
    let h := count (inputText s)
    .next (complete { s with hist := h } (BitVec.ofNat 32 (nsym h)))
  else .next (raiseCmdError s .srcRange 0)

/-- RDFREQ `sym` (R94). -/
def execRdfreq (sym : Byte) (s : State) : Host.Outcome State Fault Refusal :=
  .next (complete s (histAt s.hist sym))

end Sys2Proof.Machine
end

