-- ==== Sys2Proof/Machine/TreeBuilder.lean ====
section
/-! DEFINITION. The Huffman tree builder: the comparator, `build`, the code table, BUILD and RDCODE
(41_tree_builder.md). -/

namespace Sys2Proof.Machine

/-! ### The comparator (R111, R112) -/

/-- `symkey(b)` (R111). -/
def symkey : SymOrder → Byte → Int
  | .unsigned, b => b.toNat
  | .signed, b => b.toInt

/-- The weight of a node. -/
def Node.weight : Node → Word
  | .leaf w _ => w
  | .internal w _ _ => w

/-- `arena[i].w`. An index outside the arena, which no built tree holds, weighs nothing (log 9). -/
def nodeWeight (arena : List Node) (i : Nat) : Word :=
  match arena[i]? with
  | some n => n.weight
  | none => 0

/-- `tkey(arena, i)` (R111). -/
def tkey (c : Config) (arena : List Node) (i : Nat) : Int :=
  match arena[i]? with
  | some (.leaf _ b) => symkey c.symOrder b
  | _ => c.internalKey

/-- A priority: weight, tie-break key, arena index (R112). -/
structure Prio where
  weight : Nat
  key    : Int
  index  : Nat
deriving DecidableEq, Repr

/-- `prio(arena, i)` (R112). -/
def prio (c : Config) (arena : List Node) (i : Nat) : Prio :=
  { weight := (nodeWeight arena i).toNat, key := tkey c arena i, index := i }

/-- Priorities compare lexicographically (00_scope.md R11, R112). -/
def prioLt (p q : Prio) : Bool :=
  decide (p.weight < q.weight)
    || (decide (p.weight = q.weight)
        && (decide (p.key < q.key) || (decide (p.key = q.key) && decide (p.index < q.index))))

/-! ### The collection -/

/-- The least of `best` and the indices of a list, by priority. -/
def leastOf (c : Config) (arena : List Node) : Nat → List Nat → Nat
  | best, [] => best
  | best, i :: q =>
    if prioLt (prio c arena i) (prio c arena best) then leastOf c arena i q else leastOf c arena best q

/-- Extract the least node of the collection (R112): it, and what remains. -/
def extractLeast (c : Config) (arena : List Node) : List Nat → Option (Nat × List Nat)
  | [] => none
  | i :: q => some (leastOf c arena i q, (i :: q).erase (leastOf c arena i q))

/-! ### The build function (R113 to R116) -/

/-- Every byte with its counter, in strictly ascending `symkey` order (R113): 0x00 to 0xFF when compared as unsigned,
0x80 to 0xFF and then 0x00 to 0x7F when compared as signed. -/
def countersInOrder (o : SymOrder) (h : Hist) : List (Byte × Word) :=
  match o with
  | .unsigned => allBytes.zip h.toList
  | .signed => (allBytes.zip h.toList).drop 128 ++ (allBytes.zip h.toList).take 128

/-- `S` (R116) with the counters: the symbols whose counter is not zero, in strictly ascending `symkey` order (R113). -/
def keysInOrder (o : SymOrder) (h : Hist) : List (Byte × Word) :=
  (countersInOrder o h).filter fun p => decide (p.2 ≠ 0)

/-- The merge loop (R115), for at most `n` merges: while two nodes remain, extract the least `A`, then the least
remaining `B`, append `Internal(A.w + B.w, A, B)` and put its index into the collection. -/
def mergeLoop (c : Config) : Nat → List Node → List Nat → List Node × List Nat
  | 0, arena, q => (arena, q)
  | n + 1, arena, q =>
    match extractLeast c arena q with
    | none => (arena, q)
    | some (a, q1) =>
      match extractLeast c arena q1 with
      | none => (arena, q)
      | some (b, q2) =>
        mergeLoop c n (arena ++ [.internal (nodeWeight arena a + nodeWeight arena b) a b])
          (q2 ++ [arena.length])

/-- The leaf visits of the depth-first walk `walk(i, p)` (R117), for paths of at most `n` nodes: 0 appended when
descending left, 1 when descending right. -/
def walk (arena : List Node) : Nat → Nat → Codeword → List (Byte × Codeword)
  | 0, _, _ => []
  | n + 1, i, p =>
    match arena[i]? with
    | some (.leaf _ s) => [(s, p)]
    | some (.internal _ l r) => walk arena n l (p ++ [false]) ++ walk arena n r (p ++ [true])
    | none => []

/-- The code table the leaf visits populate: `c[s] := some(p)` for each (R117). -/
def tableOf (visits : List (Byte × Codeword)) : CodeTable :=
  visits.foldl (fun c v => codeSet c v.1 v.2) noCodes

/-- `codes(arena, root)` (R117): a root that is a leaf has the codeword 0 (R114). A path of a built tree has fewer
nodes than the arena, so the walk is never cut short (log 9). -/
def codes (arena : List Node) (root : Nat) : CodeTable :=
  match arena[root]? with
  | some (.leaf _ s) => codeSet noCodes s [false]
  | _ => tableOf (walk arena arena.length root [])

/-- The leaves at arena indices 0 to n − 1 (R113). -/
def leavesOf (o : SymOrder) (h : Hist) : List Node := (keysInOrder o h).map fun p => .leaf p.2 p.1

/-- `build(h)` (R116): `none` is EMPTY, else the tree; the code table is `codes` of it. It reads the histogram,
`P_SYM_ORDER` and `P_INTERNAL_KEY` only (R119). -/
def build (c : Config) (h : Hist) : Option HeldTree :=
  match leavesOf c.symOrder h with
  | [] => none
  | n :: ns =>
    let merged := mergeLoop c (n :: ns).length (n :: ns) (List.range (n :: ns).length)
    some { arena := merged.1, root := merged.2.headD 0 }

/-- Hold a tree and its code table, one replacement (10_state.md R40, R42). -/
def holdTree (s : State) (t : HeldTree) : State :=
  { s with tree := some t, code := codes t.arena t.root }

/-! ### Commands -/

/-- BUILD (R120). -/
def execBuild (s : State) : Host.Outcome State Fault Refusal :=
  match build s.cfg s.hist with
  | none => .next (complete s 0)
  | some t => .next (complete (holdTree s t) (BitVec.ofNat 32 (nsym s.hist)))

/-- `bitchar` (00_scope.md R14): the bit 0 is '0' = 0x30, the bit 1 is '1' = 0x31. -/
def bitchar : Bool → Byte
  | false => 0x30
  | true => 0x31

/-- A codeword as '0'/'1' bytes (42_codec.md R150, `chars`). -/
def chars (w : Codeword) : Text := w.map bitchar

/-- RDCODE `sym` (R122). -/
def execRdcode (sym : Byte) (s : State) : Host.Outcome State Fault Refusal :=
  match codeAt s.code sym with
  | none => .next (complete s 0)
  | some w =>
    if dstInRange s w.length then .next (commitOutput s (chars w))
    else .next (raiseCmdError s .dstRange (BitVec.ofNat 32 w.length))

end Sys2Proof.Machine
end

