-- ==== Sys2Proof/Machine/Codec.lean ====
section
/-! DEFINITION. The prefix-code encoder and decoder: `enc`, `dec`, ENCODE and DECODE (42_codec.md). -/

namespace Sys2Proof.Machine

/-- `enc(t, c)` (R150). Every byte of `t` has an entry when `c` comes from `build(count(t))`; a byte without one, which
no command meets, adds nothing (log 9). -/
def enc (t : Text) (c : CodeTable) : Text := t.flatMap fun b => ((codeAt c b).map chars).getD []

/-- `isbit(u)` (R153). -/
def isbit (u : Byte) : Bool := decide (u = 0x30) || decide (u = 0x31)

/-- The child that the bit character `u` leads to from node `i` (R156): '0' left, '1' right. A node without children,
at which no walk of a held tree stands, is not left (log 9). -/
def childOf (arena : List Node) (i : Nat) (u : Byte) : Nat :=
  match arena[i]? with
  | some (.internal _ l r) => if u = 0x30 then l else r
  | _ => i

/-- The loop of `dec` in the general case (R156), the walk standing at `cur`: a malformed byte is skipped, a leaf is
emitted and the walk returns to the root, a partial path at the end is dropped (R157). -/
def decWalk (arena : List Node) (root : Nat) : Nat → Text → Text
  | _, [] => []
  | cur, u :: us =>
    if isbit u then
      match arena[childOf arena cur u]? with
      | some (.leaf _ s) => s :: decWalk arena root root us
      | _ => decWalk arena root (childOf arena cur u) us
    else decWalk arena root cur us

/-- `dec(u, arena, root)` (R156): with a root that is a leaf every bit character gives its symbol. -/
def dec (u : Text) (arena : List Node) (root : Nat) : Text :=
  match arena[root]? with
  | some (.leaf _ s) => (u.filter isbit).map fun _ => s
  | _ => decWalk arena root root u

/-- ENCODE (R152). -/
def execEncode (s : State) : Host.Outcome State Fault Refusal :=
  if s.len = 0 then .next (complete s 0)
  else if ¬ srcInRange s then .next (raiseCmdError s .srcRange 0)
  else
    let t := inputText s
    let h := count t
    match build s.cfg h with
    | none => .next (complete s 0)   -- EMPTY: never, since |t| ≥ 1 (R152, log 9)
    | some tree =>
      let out := enc t (codes tree.arena tree.root)
      match outputError s out.length with
      | some e => .next (raiseCmdError s e (BitVec.ofNat 32 out.length))
      | none => .next (commitOutput (holdTree { s with hist := h } tree) out)

/-- DECODE (R155). It reads the held tree, neither `hist` nor `code` (R154). -/
def execDecode (s : State) : Host.Outcome State Fault Refusal :=
  match s.tree with
  | none => .next (complete s 0)
  | some tree =>
    if s.len = 0 then .next (complete s 0)
    else if ¬ srcInRange s then .next (raiseCmdError s .srcRange 0)
    else
      let out := dec (inputText s) tree.arena tree.root
      match outputError s out.length with
      | some e => .next (raiseCmdError s e (BitVec.ofNat 32 out.length))
      | none => .next (commitOutput s out)

end Sys2Proof.Machine
end

