-- ==== Sys2Proof/Machine/Control.lean ====
section
/-! DEFINITION. The control commands NOP and RESET (43_control.md), and the completion of an illegal word
(30_encoding.md R75). -/

namespace Sys2Proof.Machine

/-- NOP (R180): `RESULT` keeps its value. -/
def execNop (s : State) : Host.Outcome State Fault Refusal :=
  .next (complete s s.result)

/-- RESET (R182): the core returns to the fresh state; `SRC`, `LEN`, `DST` and the buffer stay. -/
def execReset (s : State) : Host.Outcome State Fault Refusal :=
  .next (complete { s with hist := noCounts, code := noCodes, tree := none } 0)

/-- An illegal command word completes with `ERR = ILLEGAL` and `RESULT = 0` (30_encoding.md R75). -/
def completeIllegal (s : State) : Host.Outcome State Fault Refusal :=
  .next (raiseCmdError s .illegal 0)

end Sys2Proof.Machine
end

