-- ==== Sys2Proof/Machine/Turn.lean ====
section
/-! DEFINITION. Who moves: the block's turn, one event of the schedule, and the placing of an accepted command. -/

namespace Sys2Proof.Machine

/-- The block's turn (60_exceptions.md R196 (3)): it completes the accepted word; an idle block does nothing (R206). -/
def blockTurn (s : State) : Host.Outcome State Fault Refusal :=
  match s.busy with
  | none => .next s
  | some w =>
    match decode w with
    | .instr i => exec i s
    | .illegal _ => completeIllegal s

/-- One event (20_memory.md R62). -/
def runEvent (s : State) : Event → Host.Outcome State Fault Refusal
  | .host a => hostAccess s a
  | .block => blockTurn s
  | .powerOn => .next (powerOnReset s)

/-- The next event of the schedule; with none left the block takes its turn, so every accepted command completes
(70_reset_and_hazards.md R226, log 8). -/
def nextEvent (s : State) : Host.Outcome State Fault Refusal :=
  match s.events with
  | [] => blockTurn s
  | e :: es => runEvent { s with events := es } e

/-- The command word `w` accepted (R25), and nothing scheduled before the block's turn (log 6). -/
def placeCommand (s : State) (w : Word) : State := { acceptCommand s w with events := [] }

end Sys2Proof.Machine
end

