-- ==== Sys2Proof/Machine/Step.lean ====
section
/-! DEFINITION. One step. -/

namespace Sys2Proof.Machine

/-- One step. A configuration outside the bounds of 00_scope.md R6 is refused (93_implementation_defined.md U5). -/
def step (s : State) : Host.Outcome State Fault Refusal :=
  if s.cfg.wf then nextEvent s else .refused .configNotAdmitted

/-- `s` with the command word `w` accepted and the block to move next, so that the very next step runs it.
A command of the HCB is never fetched; it comes from a host write to CMD, for which this stands (log 6). -/
def State.withFetchWord (s : State) (nbits w : Nat) : State :=
  placeCommand s (BitVec.ofNat 32 (w % 2 ^ nbits))

end Sys2Proof.Machine
end

