-- ==== Sys2Proof/Machine/Program.lean ====
section
/-! DEFINITION. The host-program notation of 30_encoding.md R78 and R79, as events. -/

namespace Sys2Proof.Machine

/-- A statement of a host program (R78, R79). Labels and `BNZ` stand only inside WAIT, whose loop is given by how many
of its polls find the block still busy (log 13). -/
inductive HostStmt where
  /-- `WR <reg>, <value>`. -/
  | wr (r : Reg) (v : Word)
  /-- `RD <reg>`. -/
  | rd (r : Reg)
  /-- `MEMW <addr>, <bytes>`. -/
  | memw (addr : Nat) (bytes : Text)
  /-- `MEMR <addr>, <n>`. -/
  | memr (addr n : Nat)
  /-- A command mnemonic: `WR CMD, <command word>`. -/
  | cmd (i : Instr)
  /-- `WAIT`: poll `STATUS` until `BUSY = 0`; `busyPolls` polls find it 1, then the command completes, then the last
  poll. -/
  | wait (busyPolls : Nat)
deriving DecidableEq, Repr

/-- An aligned 32-bit write of a register (R78). -/
def wrEvent (r : Reg) (v : Word) : Event := .host (.regWrite r.offset 4 v)

/-- An aligned 32-bit read of a register (R78). -/
def rdEvent (r : Reg) : Event := .host (.regRead r.offset 4)

/-- Byte writes of `bytes` at `addr`, `addr + 1`, ... (R78). -/
def memwEvents (addr : Nat) : Text → List Event
  | [] => []
  | b :: bs => .host (.bufWrite addr b) :: memwEvents (addr + 1) bs

/-- The bus effect of a statement (R78, R79). DESIGN CHOICE (log 17): the spec leaves open when a command completes
(70_reset_and_hazards.md R226, 93_implementation_defined.md U15); here the block moves inside WAIT only, so a statement
between a command and its WAIT meets the busy block. A run in which the command has completed before that statement
(95_test_vectors.md P4, outcome (b)) is a schedule with `.block` placed there. -/
def HostStmt.events : HostStmt → List Event
  | .wr r v => [wrEvent r v]
  | .rd r => [rdEvent r]
  | .memw addr bytes => memwEvents addr bytes
  | .memr addr n => (List.range n).map fun i => .host (.bufRead (addr + i))
  | .cmd i => [wrEvent .cmd (encode i)]
  | .wait k => List.replicate k (rdEvent .status) ++ [.block, rdEvent .status]

/-- The events of a program, statement after statement, each command completing inside the WAIT that follows it
(log 17). -/
def programEvents (p : List HostStmt) : List Event := p.flatMap HostStmt.events

/-- `HCOUNT src, len` (R79), its WAIT finding the block busy `k` times. -/
def hcount (src len : Word) (k : Nat) : List HostStmt :=
  [.wr .src src, .wr .len len, .cmd .count, .wait k]

/-- `HBUILD` (R79). -/
def hbuild (k : Nat) : List HostStmt := [.cmd .build, .wait k]

/-- `HENC src, len, dst` (R79). -/
def henc (src len dst : Word) (k : Nat) : List HostStmt :=
  [.wr .src src, .wr .len len, .wr .dst dst, .cmd .encode, .wait k]

/-- `HDEC src, len, dst` (R79). -/
def hdec (src len dst : Word) (k : Nat) : List HostStmt :=
  [.wr .src src, .wr .len len, .wr .dst dst, .cmd .decode, .wait k]

/-- `HCODE sym, dst` (R79). -/
def hcode (sym : Byte) (dst : Word) (k : Nat) : List HostStmt :=
  [.wr .dst dst, .cmd (.rdcode sym), .wait k]

/-- `HFREQ sym` (R79). -/
def hfreq (sym : Byte) (k : Nat) : List HostStmt :=
  [.cmd (.rdfreq sym), .wait k, .rd .result]

end Sys2Proof.Machine
end

