-- ==== Sys2Proof/Safety.lean ====
section
/-! DEFINITION. What holds of a state a run reaches: the tree invariant of 10_state.md R39, and the invariant of the
whole state. -/

namespace Sys2Proof.Machine

/-- The index of every child, once for each internal node that names it. -/
def childRefs (arena : List Node) : List Nat :=
  arena.flatMap fun
    | .leaf _ _ => []
    | .internal _ l r => [l, r]

/-- Index `i` holds a leaf. -/
def leafAt (arena : List Node) (i : Nat) : Bool :=
  match arena[i]? with
  | some (.leaf _ _) => true
  | _ => false

/-- Index `k` holds an internal node as R39(c) says: two different children, both created before it, and the exact sum
of their weights (no carry is lost, 00_scope.md R7). -/
def internalAt (arena : List Node) (k : Nat) : Bool :=
  match arena[k]? with
  | some (.internal w l r) =>
    decide (l < k) && decide (r < k) && decide (l ≠ r)
      && decide (w.toNat = (nodeWeight arena l).toNat + (nodeWeight arena r).toNat)
  | _ => false

/-- The tree invariant (R39), `n` being the number of leaves. -/
structure HeldTree.Wf (o : SymOrder) (t : HeldTree) (n : Nat) : Prop where
  /-- (a) 1 ≤ n. -/
  atLeast    : 1 ≤ n
  /-- (a) n ≤ 256. -/
  atMost     : n ≤ 256
  /-- n is the number of leaves. -/
  leaves     : (leafSyms t.arena).length = n
  /-- (a) |arena| = 2n − 1. -/
  size       : t.arena.length = 2 * n - 1
  /-- (b) `arena[0..n−1]` are the leaves. -/
  leafFirst  : ∀ i, i < n → leafAt t.arena i = true
  /-- (b) in strictly ascending tie-break order, so with pairwise distinct symbols. -/
  ascending  : (leafSyms t.arena).Pairwise fun a b => symkey o a < symkey o b
  /-- (c) `arena[n..2n−2]` are internal nodes. -/
  internals  : ∀ k, n ≤ k → k < t.arena.length → internalAt t.arena k = true
  /-- (d) root = 2n − 2. -/
  rootIndex  : t.root = 2 * n - 2
  /-- (e) every index other than the root is the child of exactly one internal node. -/
  oneParent  : ∀ i, i < t.arena.length → i ≠ t.root → (childRefs t.arena).count i = 1

/-- The node that the path `p` leads to from node `i`, 0 descending left and 1 descending right (41_tree_builder.md
R117); none once it leaves the tree. -/
def followPath (arena : List Node) : Nat → Codeword → Option Nat
  | i, [] => some i
  | i, b :: p =>
    match arena[i]? with
    | some (.internal _ l r) => followPath arena (if b then r else l) p
    | _ => none

/-- The path `p` leads from the root to the leaf of symbol `b`. -/
def HeldTree.Reaches (t : HeldTree) (p : Codeword) (b : Byte) : Prop :=
  ∃ i w, followPath t.arena t.root p = some i ∧ t.arena[i]? = some (Node.leaf w b)

/-- The path `p` ends inside the tree, at an internal node. -/
def HeldTree.Inside (t : HeldTree) (p : Codeword) : Prop :=
  ∃ i w l r, followPath t.arena t.root p = some i ∧ t.arena[i]? = some (Node.internal w l r)

/-- The invariant of the whole state. -/
structure State.Inv (s : State) : Prop where
  /-- The configuration is within R6's bounds. -/
  config   : s.cfg.wf = true
  /-- The buffer memory keeps its canonical form. -/
  memForm  : Memory.wf s.mem
  /-- Only addresses 0 to MEM_BYTES − 1 exist (20_memory.md R50). -/
  memBound : ∀ p ∈ s.mem, p.1 < s.cfg.memBytes
  /-- ERR is one of the codes of 60_exceptions.md R191 (U18). -/
  errCode  : s.err.toNat ≤ 4
  /-- The counters together are at most MEM_BYTES, so no counter, weight or sum overflows (R7, R35). -/
  counts   : total s.hist ≤ s.cfg.memBytes
  /-- A held tree meets R39, and `code` is its code table (R42). -/
  held     : ∀ t, s.tree = some t →
    HeldTree.Wf s.cfg.symOrder t (nleaf (some t)) ∧ s.code = codes t.arena t.root
  /-- Without a tree every entry of `code` is none (R42). -/
  noTree   : s.tree = none → s.code = noCodes

/-- The host's access `a` is a read that returns `v` and changes nothing of the record of R20 (10_state.md R23(d)). -/
def State.HostSees (s : State) (a : HostAccess) (v : Seen) : Prop :=
  ∃ t, hostAccess s a = .next t ∧ t = { s with seen := s.seen ++ [v], draws := t.draws }

/-- A host program has ended (70_reset_and_hazards.md R235): nothing is left to run and the block is idle. -/
def State.Ended (s : State) : Prop := s.events = [] ∧ s.busy = none

end Sys2Proof.Machine
end

