-- ==== Sys2Proof/Certificates/Slice0/Obligations.lean ====
section
/-! DEFINITION. The statements for the provers, family by family. -/

open Sys2Proof Sys2Proof.Machine

/-! ### The command word -/

/-- 30_encoding.md R71, R73, R74: each legal word has one meaning and each command one word; no bit is dropped. -/
def Obligations.DecodeInvertsEncode : Prop :=
  ∀ (w : Word) (i : Instr), decode w = .instr i ↔ w = encode i

/-- 30_encoding.md R74, the decode function clause by clause, and its agreement with the opcode table: one row for a
legal word, the row of its command, and none for an illegal one. -/
def Obligations.DecodeFollowsOpcodeTable : Prop :=
  ∀ w : Word,
    (cmdRsv w ≠ 0 → ∃ why, decode w = .illegal why) ∧
    (cmdRsv w = 0 → cmdOp w = 0x06 → decode w = .instr (.rdcode (cmdSym w))) ∧
    (cmdRsv w = 0 → cmdOp w = 0x07 → decode w = .instr (.rdfreq (cmdSym w))) ∧
    (cmdRsv w = 0 → (cmdOp w).toNat ≤ 5 → cmdSym w = 0 →
      ∃ i, [Instr.nop, .reset, .count, .build, .encode, .decode][(cmdOp w).toNat]? = some i ∧
        decode w = .instr i) ∧
    (cmdRsv w = 0 → (cmdOp w).toNat ≤ 5 → cmdSym w ≠ 0 → ∃ why, decode w = .illegal why) ∧
    (cmdRsv w = 0 → 8 ≤ (cmdOp w).toNat → ∃ why, decode w = .illegal why) ∧
    (∀ i, decode w = .instr i → ∃ r, matchingRows w = [r] ∧ r.mnemonic = mnemonic i) ∧
    (∀ why, decode w = .illegal why → matchingRows w = [])

/-- 30_encoding.md R80: the command words, and two of them decoded. -/
def Obligations.CommandWords : Prop :=
  encode .nop = 0x00000000 ∧ encode .reset = 0x00000001 ∧ encode .count = 0x00000002 ∧
  encode .build = 0x00000003 ∧ encode .encode = 0x00000004 ∧ encode .decode = 0x00000005 ∧
  (∀ s : Byte, encode (.rdcode s) = 0x00000006 ||| (s.setWidth 32 <<< 8)) ∧
  (∀ s : Byte, encode (.rdfreq s) = 0x00000007 ||| (s.setWidth 32 <<< 8)) ∧
  decode 0x00006106 = .instr (.rdcode 0x61) ∧ decode 0x00006207 = .instr (.rdfreq 0x62)

/-- 30_encoding.md R75: an illegal word is accepted like any other and completes with ERR = 1 and RESULT = 0; nothing
else changes. -/
def Obligations.IllegalWordCompletes : Prop :=
  ∀ (s : State) (w : Word), s.busy = none →
    (8 ≤ (cmdOp w).toNat ∨ cmdRsv w ≠ 0 ∨ (cmdSym w ≠ 0 ∧ (cmdOp w).toNat ≤ 5)) →
    hostAccess s (.regWrite 0x04 4 w) = .next { s with busy := some w, drop := false } ∧
    blockTurn { s with busy := some w, drop := false } =
      .next { s with busy := none, drop := false, err := 1, result := 0 }

/-! ### Control -/

/-- 43_control.md R180: NOP clears ERR, keeps RESULT and everything else; STATUS keeps TREE_VALID and DROP. -/
def Obligations.NopClearsErrOnly : Prop :=
  ∀ s : State, ∃ t, exec .nop s = .next t ∧ t = { s with err := 0, busy := none } ∧
    regValue t .status = statusWord false s.tree.isSome 0 s.drop

/-- 43_control.md R182: RESET empties the histogram, the tree and the code table, and keeps SRC, LEN, DST and the
buffer; afterwards DECODE and every RDCODE give an empty result. -/
def Obligations.ResetCommandGivesFreshCore : Prop :=
  ∀ s : State, ∃ t, exec .reset s = .next t ∧
    (∀ b, histAt t.hist b = 0) ∧ (∀ b, codeAt t.code b = none) ∧ t.tree = none ∧
    t = { s with hist := t.hist, code := t.code, tree := none, result := 0, err := 0, busy := none } ∧
    regValue t .nsym = 0 ∧ regValue t .total = 0 ∧ regValue t .nleaf = 0 ∧
    (∀ u : State, u.tree = t.tree → u.code = t.code →
      exec .decode u = .next { u with result := 0, err := 0, busy := none } ∧
      ∀ b, exec (.rdcode b) u = .next { u with result := 0, err := 0, busy := none })

/-- 70_reset_and_hazards.md R223: the RESET command, accepted and completed on an idle block, and power-on reset differ
in SRC, LEN, DST and the buffer contents only. -/
def Obligations.ResetCommandAndPowerOnDiffer : Prop :=
  ∀ s : State, s.busy = none →
    ∃ t u, hostAccess s (.regWrite 0x04 4 0x00000001) = .next t ∧ blockTurn t = .next u ∧
      u.src = s.src ∧ u.len = s.len ∧ u.dst = s.dst ∧ (∀ a, u.readByte a = s.readByte a) ∧
      runEvent s .powerOn = .next { u with
        src := 0, len := 0, dst := 0, mem := [], powerOns := s.powerOns + 1 } ∧
      u.hist = noCounts ∧ u.tree = none ∧ u.code = noCodes ∧ u.result = 0 ∧ u.err = 0 ∧ u.drop = false

/-! ### The histogram -/

/-- 40_histogram.md R90: `count(t)[s]` is the occurrence count of `s`, whatever the order of accumulation. -/
def Obligations.CountIsOccurrences : Prop :=
  (∀ (t : Text) (b : Byte), histAt (count t) b = BitVec.ofNat 32 (t.count b)) ∧
  (∀ t u : Text, t.Perm u → count t = count u)

/-- 40_histogram.md R91: for a text a command can read, every counter is exact and at most 2^24, and the counters add up
to the length. -/
def Obligations.CountersNeverWrap : Prop :=
  ∀ s : State, s.cfg.wf = true → srcInRange s →
    (inputText s).length = s.len.toNat ∧ s.len.toNat ≤ s.cfg.memBytes ∧ s.cfg.memBytes ≤ 2 ^ 24 ∧
    (∀ b, (histAt (count (inputText s)) b).toNat = (inputText s).count b ∧
      (histAt (count (inputText s)) b).toNat ≤ 2 ^ 24) ∧
    total (count (inputText s)) = (inputText s).length ∧
    (inputText s = [] → ∀ b, histAt (count (inputText s)) b = 0)

/-- 40_histogram.md R92: COUNT rewrites all 256 counters with the occurrences in `[SRC, SRC + LEN)` and answers the
number of distinct symbols; out of range it answers SRC_RANGE and keeps the histogram. -/
def Obligations.CountResult : Prop :=
  ∀ s : State,
    (srcInRange s → ∃ t, exec .count s = .next t ∧
      (∀ b, histAt t.hist b = BitVec.ofNat 32
        ((List.range s.len.toNat).countP fun i => decide (s.readByte (s.src.toNat + i) = b))) ∧
      t.result = BitVec.ofNat 32 ((allBytes.filter fun b => decide (histAt t.hist b ≠ 0)).length) ∧
      regValue t .nsym = t.result ∧
      t = { s with hist := t.hist, result := t.result, err := 0, busy := none }) ∧
    (¬ srcInRange s → exec .count s = .next { s with result := 0, err := 2, busy := none })

/-- 40_histogram.md R94: RDFREQ answers the counter of its symbol, indexed by the unsigned byte value; nothing else
changes, and a symbol reads 0 after reset and after RESET. -/
def Obligations.RdfreqResult : Prop :=
  (∀ (b : Byte) (s : State),
    exec (.rdfreq b) s = .next { s with result := s.hist.toList.getD b.toNat 0, err := 0, busy := none }) ∧
  (∀ (b : Byte) (c : Config), exec (.rdfreq b) { State.reset with cfg := c } = .next { State.reset with cfg := c }) ∧
  (∀ (b : Byte) (s t u : State), exec .reset s = .next t → exec (.rdfreq b) t = .next u → u.result = 0)

/-! ### The comparator and the builder -/

/-- 41_tree_builder.md R112: priorities compare lexicographically by weight, key and index; they are a strict total order
on different indices; extraction takes the least. -/
def Obligations.PriorityIsStrictTotalOrder : Prop :=
  ∀ (c : Config) (arena : List Node),
    (∀ i j, prioLt (prio c arena i) (prio c arena j) = true ↔
      (nodeWeight arena i).toNat < (nodeWeight arena j).toNat ∨
      (nodeWeight arena i = nodeWeight arena j ∧ (tkey c arena i < tkey c arena j ∨
        (tkey c arena i = tkey c arena j ∧ i < j)))) ∧
    (∀ i, prioLt (prio c arena i) (prio c arena i) = false) ∧
    (∀ i j k, prioLt (prio c arena i) (prio c arena j) = true → prioLt (prio c arena j) (prio c arena k) = true →
      prioLt (prio c arena i) (prio c arena k) = true) ∧
    (∀ i j, i ≠ j → prioLt (prio c arena i) (prio c arena j) = true ∨ prioLt (prio c arena j) (prio c arena i) = true) ∧
    (∀ q : List Nat, q.Nodup → q ≠ [] → ∃ m, extractLeast c arena q = some (m, q.erase m) ∧ m ∈ q ∧
      ∀ j ∈ q, j ≠ m → prioLt (prio c arena m) (prio c arena j) = true)

/-- 41_tree_builder.md R110, R113: `build` gives EMPTY only for an all-zero histogram; otherwise the arena begins with one
leaf for each key, with its counter, in strictly ascending `symkey` order. -/
def Obligations.BuildSeedsLeavesInOrder : Prop :=
  ∀ (c : Config) (h : Hist),
    (build c h = none ↔ ∀ b, histAt h b = 0) ∧
    (∀ t, build c h = some t →
      (∀ b, b ∈ leafSyms t.arena ↔ histAt h b ≠ 0) ∧
      (leafSyms t.arena).Pairwise (fun a b => symkey c.symOrder a < symkey c.symOrder b) ∧
      t.arena.take (leafSyms t.arena).length = (leafSyms t.arena).map fun b => .leaf (histAt h b) b)

/-- 41_tree_builder.md R114: one distinct symbol gives one leaf, the root, with the codeword 0. -/
def Obligations.SingleSymbolTree : Prop :=
  ∀ (c : Config) (h : Hist) (b : Byte), histAt h b ≠ 0 → (∀ a, a ≠ b → histAt h a = 0) →
    ∃ t, build c h = some t ∧ t = { arena := [.leaf (histAt h b) b], root := 0 } ∧
      codeAt (codes t.arena t.root) b = some [false] ∧
      ∀ a, a ≠ b → codeAt (codes t.arena t.root) a = none

/-- 41_tree_builder.md R115: an internal node's children are the least node of the collection, then the least that
remains: every other node that exists at that moment and has no parent yet comes after both in the priority order. Its
weight is their sum. The last node is the root. -/
def Obligations.MergeTakesTwoLeast : Prop :=
  ∀ (c : Config) (h : Hist) (t : HeldTree), build c h = some t →
    t.root + 1 = t.arena.length ∧
    ∀ (k : Nat) (w : Word) (l r : Nat), t.arena[k]? = some (.internal w l r) →
      l < k ∧ r < k ∧ l ≠ r ∧ w = nodeWeight t.arena l + nodeWeight t.arena r ∧
      prioLt (prio c t.arena l) (prio c t.arena r) = true ∧
      ∀ j, j < k → j ≠ l → j ≠ r →
        (∀ (m : Nat) (v : Word) (x y : Nat), m < k → t.arena[m]? = some (.internal v x y) → j ≠ x ∧ j ≠ y) →
        prioLt (prio c t.arena r) (prio c t.arena j) = true

/-- 41_tree_builder.md R118: left and right on ties. -/
def Obligations.TieOrderOfChildren : Prop :=
  ∀ (c : Config) (h : Hist) (t : HeldTree), build c h = some t →
    ∀ (k : Nat) (w : Word) (l r : Nat), t.arena[k]? = some (.internal w l r) →
      prioLt (prio c t.arena l) (prio c t.arena r) = true ∧
      (nodeWeight t.arena l).toNat ≤ (nodeWeight t.arena r).toNat ∧
      (nodeWeight t.arena l = nodeWeight t.arena r →
        (∀ v a u b, t.arena[l]? = some (.leaf v a) → t.arena[r]? = some (.leaf u b) →
          symkey c.symOrder a < symkey c.symOrder b) ∧
        (∀ v a u x y, t.arena[l]? = some (.leaf v a) → t.arena[r]? = some (.internal u x y) →
          symkey c.symOrder a ≤ c.internalKey) ∧
        (∀ v x y u b, t.arena[l]? = some (.internal v x y) → t.arena[r]? = some (.leaf u b) →
          c.internalKey < symkey c.symOrder b) ∧
        (∀ v x y u x' y', t.arena[l]? = some (.internal v x y) → t.arena[r]? = some (.internal u x' y') →
          l < r))

/-- 41_tree_builder.md R116 and 10_state.md R39: a built tree meets the tree invariant, with one leaf for each key and
every weight an exact sum. -/
def Obligations.BuildMeetsTreeInvariant : Prop :=
  ∀ (c : Config) (h : Hist) (t : HeldTree), total h < 2 ^ 32 → build c h = some t →
    HeldTree.Wf c.symOrder t ((allBytes.filter fun b => decide (histAt h b ≠ 0)).length)

/-- 41_tree_builder.md R117: the codeword of a symbol is the path from the root to its leaf; a root that is a leaf has the
codeword 0. -/
def Obligations.CodewordIsPathToLeaf : Prop :=
  ∀ (c : Config) (h : Hist) (t : HeldTree), build c h = some t →
    (∀ w s, t.arena[t.root]? = some (.leaf w s) → codeAt (codes t.arena t.root) s = some [false] ∧
      ∀ b, b ≠ s → codeAt (codes t.arena t.root) b = none) ∧
    (∀ w l r, t.arena[t.root]? = some (.internal w l r) →
      (∀ b p, codeAt (codes t.arena t.root) b = some p ↔ t.Reaches p b) ∧
      (∀ b, b ∈ leafSyms t.arena → ∃ p, codeAt (codes t.arena t.root) b = some p ∧ p ≠ []))

/-- 41_tree_builder.md R119: `build` depends on the histogram, P_SYM_ORDER and P_INTERNAL_KEY only, and BUILD twice on
the same histogram gives the same tree and code table. -/
def Obligations.BuildIsDeterministic : Prop :=
  (∀ (c c' : Config) (h : Hist), c.symOrder = c'.symOrder → c.internalKey = c'.internalKey →
    build c h = build c' h) ∧
  (∀ s s' t t' : State, s.hist = s'.hist → s.cfg.symOrder = s'.cfg.symOrder →
    s.cfg.internalKey = s'.cfg.internalKey → (∃ b, histAt s.hist b ≠ 0) →
    exec .build s = .next t → exec .build s' = .next t' → t.tree = t'.tree ∧ t.code = t'.code)

/-- 41_tree_builder.md R120: BUILD replaces the tree and the code table at once and answers the number of leaves; with
an empty histogram it keeps them and answers 0. -/
def Obligations.BuildResult : Prop :=
  ∀ s : State,
    ((∀ b, histAt s.hist b = 0) → exec .build s = .next { s with result := 0, err := 0, busy := none }) ∧
    ((∃ b, histAt s.hist b ≠ 0) → ∃ tr t, build s.cfg s.hist = some tr ∧ exec .build s = .next t ∧
      t = { s with
        tree := some tr, code := codes tr.arena tr.root,
        result := BitVec.ofNat 32 ((allBytes.filter fun b => decide (histAt s.hist b ≠ 0)).length),
        err := 0, busy := none } ∧
      regValue t .nleaf = t.result ∧ (regValue t .status).getLsbD 1 = true)

/-- 41_tree_builder.md R122: RDCODE writes the codeword as '0'/'1' bytes at DST and answers its length; an absent symbol
is an empty result whatever DST holds; out of range it answers DST_RANGE and writes no byte. -/
def Obligations.RdcodeResult : Prop :=
  ∀ (b : Byte) (s : State),
    (codeAt s.code b = none → exec (.rdcode b) s = .next { s with result := 0, err := 0, busy := none }) ∧
    (∀ w, codeAt s.code b = some w → dstInRange s w.length →
      ∃ t, exec (.rdcode b) s = .next t ∧
        (∀ (i : Nat) (x : Bool), w[i]? = some x → t.readByte (s.dst.toNat + i) = if x then 0x31 else 0x30) ∧
        (∀ a, ¬ (s.dst.toNat ≤ a ∧ a < s.dst.toNat + w.length) → t.readByte a = s.readByte a) ∧
        t = { s with mem := t.mem, result := BitVec.ofNat 32 w.length, err := 0, busy := none }) ∧
    (∀ w, codeAt s.code b = some w → ¬ dstInRange s w.length →
      exec (.rdcode b) s = .next { s with result := BitVec.ofNat 32 w.length, err := 3, busy := none })

/-- 41_tree_builder.md R134: the source's worked trace, for h = a 2, b 3, c 2; the same for every P_SYM_ORDER and
P_INTERNAL_KEY. -/
def Obligations.WorkedTrace : Prop :=
  ∀ (c : Config) (h : Hist), h = count [0x61, 0x61, 0x62, 0x62, 0x62, 0x63, 0x63] →
    build c h = some
      { arena := [.leaf 2 0x61, .leaf 3 0x62, .leaf 2 0x63, .internal 4 0 2, .internal 7 1 3], root := 4 } ∧
    (∀ t, build c h = some t →
      codeAt (codes t.arena t.root) 0x61 = some [true, false] ∧
      codeAt (codes t.arena t.root) 0x62 = some [false] ∧
      codeAt (codes t.arena t.root) 0x63 = some [true, true])

/-! ### Laws of the code -/

/-- 41_tree_builder.md R130: no codeword is a prefix of another, codewords are distinct, and the reverse table of
10_state.md R43 is well defined. -/
def Obligations.CodeIsPrefixFree : Prop :=
  ∀ (c : Config) (h : Hist) (t : HeldTree), build c h = some t →
    (∀ a b p q, codeAt (codes t.arena t.root) a = some p → codeAt (codes t.arena t.root) b = some q →
      a ≠ b → ¬ p <+: q) ∧
    (∀ a b p, codeAt (codes t.arena t.root) a = some p → codeAt (codes t.arena t.root) b = some p → a = b) ∧
    ((leafSyms t.arena).length = 1 → ∀ a p, codeAt (codes t.arena t.root) a = some p → p = [false])

/-- 41_tree_builder.md R131: the Kraft sum, scaled by 2^255, is 2^255 for two or more symbols and half of it for one;
the unused '1' of the single-symbol code decodes to that symbol. -/
def Obligations.KraftEquality : Prop :=
  ∀ (c : Config) (h : Hist) (t : HeldTree), build c h = some t →
    (2 ≤ (leafSyms t.arena).length →
      (allBytes.map fun b => match codeAt (codes t.arena t.root) b with
        | none => 0
        | some p => 2 ^ (255 - p.length)).sum = 2 ^ 255) ∧
    ((leafSyms t.arena).length = 1 →
      (allBytes.map fun b => match codeAt (codes t.arena t.root) b with
        | none => 0
        | some p => 2 ^ (255 - p.length)).sum = 2 ^ 254 ∧
      ∀ b, b ∈ leafSyms t.arena → dec [0x31] t.arena t.root = [b])

/-- 41_tree_builder.md R132: codeword lengths, and the weight of the root. -/
def Obligations.CodewordLengths : Prop :=
  ∀ (c : Config) (h : Hist) (t : HeldTree), build c h = some t →
    (2 ≤ (leafSyms t.arena).length → (leafSyms t.arena).length - 1 ≤ 255 ∧
      ∀ b, b ∈ leafSyms t.arena → ∃ p, codeAt (codes t.arena t.root) b = some p ∧
        1 ≤ p.length ∧ p.length ≤ (leafSyms t.arena).length - 1) ∧
    (total h < 2 ^ 32 → (nodeWeight t.arena t.root).toNat = total h)

/-! ### The codec -/

/-- 42_codec.md R150: the encoding is the concatenation of the characters of the codewords, in input order; and every byte
of a text has a codeword in the code of its own counts. -/
def Obligations.EncodingConcatenatesCodewords : Prop :=
  (∀ (t : Text) (k : CodeTable) (ps : List Codeword), ps.map some = t.map (codeAt k) →
    enc t k = ps.flatten.map fun x => if x then 0x31 else 0x30) ∧
  (∀ (c : Config) (t : Text), t.length < 2 ^ 32 → t ≠ [] →
    ∃ tr, build c (count t) = some tr ∧ ∀ b, b ∈ t → ∃ p, codeAt (codes tr.arena tr.root) b = some p)

/-- 42_codec.md R151: the length of an encoding is the sum of codeword length times frequency, for every text and code
table; and RESULT after every ENCODE that computes an output (no error, DST_RANGE or OVERLAP) is that length in the code of
the text's own build, untruncated (log 10), at most 255 · 2^24. -/
def Obligations.EncodedLengthIsWeightedSum : Prop :=
  (∀ (t : Text) (k : CodeTable),
    (enc t k).length = (allBytes.map fun b => ((codeAt k b).getD []).length * t.count b).sum) ∧
  (∀ s : State, s.cfg.wf = true → s.len ≠ 0 → srcInRange s →
    ∃ tr t, build s.cfg (count (inputText s)) = some tr ∧ exec .encode s = .next t ∧
      (t.err = 0 ∨ t.err = 3 ∨ t.err = 4) ∧
      t.result.toNat = (enc (inputText s) (codes tr.arena tr.root)).length ∧
      t.result.toNat = (allBytes.map fun b =>
        ((codeAt (codes tr.arena tr.root) b).getD []).length * (histAt (count (inputText s)) b).toNat).sum ∧
      t.result.toNat ≤ 255 * 2 ^ 24)

/-- 42_codec.md R152: ENCODE, every outcome, with what each leaves unchanged. -/
def Obligations.EncodeResult : Prop :=
  ∀ s : State,
    (s.len = 0 → exec .encode s = .next { s with result := 0, err := 0, busy := none }) ∧
    (s.len ≠ 0 → ¬ srcInRange s → exec .encode s = .next { s with result := 0, err := 2, busy := none }) ∧
    (s.len ≠ 0 → srcInRange s → ∃ tr, build s.cfg (count (inputText s)) = some tr ∧
      ∀ out, out = enc (inputText s) (codes tr.arena tr.root) →
        (¬ dstInRange s out.length → exec .encode s =
          .next { s with result := BitVec.ofNat 32 out.length, err := 3, busy := none }) ∧
        (dstInRange s out.length → overlap s out.length → exec .encode s =
          .next { s with result := BitVec.ofNat 32 out.length, err := 4, busy := none }) ∧
        (dstInRange s out.length → ¬ overlap s out.length → ∃ t, exec .encode s = .next t ∧
          (∀ (i : Nat) (x : Byte), out[i]? = some x → t.readByte (s.dst.toNat + i) = x) ∧
          (∀ a, ¬ (s.dst.toNat ≤ a ∧ a < s.dst.toNat + out.length) → t.readByte a = s.readByte a) ∧
          t = { s with
            hist := count (inputText s), tree := some tr, code := codes tr.arena tr.root, mem := t.mem,
            result := BitVec.ofNat 32 out.length, err := 0, busy := none }))

/-- 42_codec.md R155: DECODE, every outcome, with what each leaves unchanged; the output is at most LEN bytes. -/
def Obligations.DecodeResult : Prop :=
  ∀ s : State,
    (s.tree = none ∨ s.len = 0 → exec .decode s = .next { s with result := 0, err := 0, busy := none }) ∧
    (∀ tr, s.tree = some tr → s.len ≠ 0 →
      (¬ srcInRange s → exec .decode s = .next { s with result := 0, err := 2, busy := none }) ∧
      (srcInRange s → ∀ out, out = dec (inputText s) tr.arena tr.root →
        out.length ≤ (inputText s).countP isbit ∧ out.length ≤ s.len.toNat ∧
        (¬ dstInRange s out.length → exec .decode s =
          .next { s with result := BitVec.ofNat 32 out.length, err := 3, busy := none }) ∧
        (dstInRange s out.length → overlap s out.length → exec .decode s =
          .next { s with result := BitVec.ofNat 32 out.length, err := 4, busy := none }) ∧
        (dstInRange s out.length → ¬ overlap s out.length → ∃ t, exec .decode s = .next t ∧
          (∀ (i : Nat) (x : Byte), out[i]? = some x → t.readByte (s.dst.toNat + i) = x) ∧
          (∀ a, ¬ (s.dst.toNat ≤ a ∧ a < s.dst.toNat + out.length) → t.readByte a = s.readByte a) ∧
          t = { s with
            mem := t.mem, result := BitVec.ofNat 32 out.length, err := 0, busy := none })))

/-- 42_codec.md R154: DECODE reads the held tree only, neither `hist` nor `code`, and changes none of the three. -/
def Obligations.DecodeReadsHeldTreeOnly : Prop :=
  ∀ (s t : State) (h : Hist) (k : CodeTable), exec .decode s = .next t →
    t.hist = s.hist ∧ t.tree = s.tree ∧ t.code = s.code ∧
    exec .decode { s with hist := h, code := k } = .next { t with hist := h, code := k }

/-- 42_codec.md R156: in a tree whose root is internal, the characters of a path to a leaf give its symbol, and the walk
goes on from the root; in a tree of one leaf every bit character gives its symbol. -/
def Obligations.DecodingWalksFromRoot : Prop :=
  ∀ t : HeldTree,
    (∀ w s u, t.arena[t.root]? = some (.leaf w s) →
      dec u t.arena t.root = List.replicate (u.countP isbit) s) ∧
    (∀ w l r, t.arena[t.root]? = some (.internal w l r) →
      dec [] t.arena t.root = [] ∧
      ∀ p b u, t.Reaches p b → dec (chars p ++ u) t.arena t.root = b :: dec u t.arena t.root)

/-- 42_codec.md R157: after whole codewords, a partial path at the end is dropped without a trace. -/
def Obligations.TrailingPartialPathDropped : Prop :=
  ∀ (c : Config) (h : Hist) (tr : HeldTree) (t : Text) (p : Codeword), build c h = some tr →
    (∀ b, b ∈ t → b ∈ leafSyms tr.arena) → tr.Inside p →
    dec (enc t (codes tr.arena tr.root) ++ chars p) tr.arena tr.root = t

/-- 42_codec.md R159: malformed bytes behave as if removed. -/
def Obligations.MalformedBytesSkipped : Prop :=
  ∀ (u : Text) (arena : List Node) (root : Nat), dec u arena root = dec (u.filter isbit) arena root

/-- 42_codec.md R158: ENCODE without error, then a DECODE of its output with the same tree held, whatever ran in between,
writes the same text back; and so for the functions. -/
def Obligations.RoundTrip : Prop :=
  ∀ s t : State, s.cfg.wf = true → s.len ≠ 0 → exec .encode s = .next t → t.err = 0 →
    (∃ tr, t.tree = some tr ∧ dec (enc (inputText s) t.code) tr.arena tr.root = inputText s) ∧
    ∀ u : State, u.cfg = s.cfg → u.tree = t.tree → u.src = s.dst → u.len = t.result →
      (∀ i, i < t.result.toNat → u.readByte (s.dst.toNat + i) = t.readByte (s.dst.toNat + i)) →
      dstInRange u s.len.toNat → ¬ overlap u s.len.toNat →
      ∃ v, exec .decode u = .next v ∧ v.err = 0 ∧ v.result = s.len ∧
        readText v u.dst.toNat s.len.toNat = inputText s

/-! ### Errors -/

/-- 60_exceptions.md R193: a command that ends in an error changes ERR, RESULT and busy only. -/
def Obligations.ErrorChangesNothingElse : Prop :=
  ∀ (i : Instr) (s t : State), exec i s = .next t → t.err ≠ 0 →
    t = { s with err := t.err, result := t.result, busy := none }

/-- 60_exceptions.md R192: which codes each command can raise. -/
def Obligations.ErrorCodesOfCommands : Prop :=
  (∀ s t : State, exec .nop s = .next t ∨ exec .reset s = .next t ∨ exec .build s = .next t ∨
    (∃ b, exec (.rdfreq b) s = .next t) → t.err = 0) ∧
  (∀ s t : State, exec .count s = .next t → t.err = 0 ∨ t.err = 2) ∧
  (∀ (b : Byte) (s t : State), exec (.rdcode b) s = .next t → t.err = 0 ∨ t.err = 3) ∧
  (∀ s t : State, exec .encode s = .next t ∨ exec .decode s = .next t →
    t.err = 0 ∨ t.err = 2 ∨ t.err = 3 ∨ t.err = 4) ∧
  (∃ s t : State, exec .count s = .next t ∧ t.err = 2) ∧
  (∃ (b : Byte) (s t : State), exec (.rdcode b) s = .next t ∧ t.err = 3) ∧
  (∀ e : BitVec 4, e = 2 ∨ e = 3 ∨ e = 4 →
    (∃ s t : State, exec .encode s = .next t ∧ t.err = e) ∧
    (∃ s t : State, exec .decode s = .next t ∧ t.err = e))

/-- 60_exceptions.md R194: ILLEGAL comes first; then the empty outcomes; then SRC_RANGE, DST_RANGE and OVERLAP, in this
order, each judged on the output length that RESULT reports. -/
def Obligations.OrderOfChecks : Prop :=
  (∀ (s : State) (w : Word) (why : IllegalWord), s.busy = some w → decode w = .illegal why →
    ∃ t, blockTurn s = .next t ∧ t.err = 1) ∧
  (∀ (b : Byte) (s t : State), exec (.rdcode b) s = .next t → codeAt s.code b = none → t.err = 0 ∧ t.result = 0) ∧
  (∀ s t : State, (exec .encode s = .next t ∧ s.len = 0) ∨
      (exec .decode s = .next t ∧ (s.tree = none ∨ s.len = 0)) → t.err = 0 ∧ t.result = 0) ∧
  (∀ s t : State, s.Inv → (exec .encode s = .next t ∧ s.len ≠ 0) ∨
      (exec .decode s = .next t ∧ s.tree ≠ none ∧ s.len ≠ 0) →
    (t.err = 2 ↔ ¬ srcInRange s) ∧
    (t.err = 3 ↔ srcInRange s ∧ ¬ dstInRange s t.result.toNat) ∧
    (t.err = 4 ↔ srcInRange s ∧ dstInRange s t.result.toNat ∧ overlap s t.result.toNat) ∧
    (t.err = 0 ↔ srcInRange s ∧ dstInRange s t.result.toNat ∧ ¬ overlap s t.result.toNat))

/-! ### The life of a command -/

/-- 60_exceptions.md R196: the block's turn on an accepted word that decodes to `i` is `exec i`; a step takes that turn
when it is scheduled or when nothing is (the schedule is the model's, log 2), and so does a step on a placed command
word (log 6). -/
def Obligations.StepRunsDecodedCommand : Prop :=
  ∀ (s : State) (w : Word) (i : Instr), s.cfg.wf = true → decode w = .instr i →
    (s.busy = some w → s.events = [] → step s = exec i s) ∧
    (∀ es, s.busy = some w → s.events = .block :: es → step s = exec i { s with events := es }) ∧
    step (s.withFetchWord 32 w.toNat) = exec i (s.withFetchWord 32 w.toNat)

/-- 70_reset_and_hazards.md R226: no command can hang: whatever word was accepted, the block's turn completes it, and with
nothing else scheduled a step takes that turn. -/
def Obligations.EveryCommandCompletes : Prop :=
  ∀ s : State, s.cfg.wf = true → s.events = [] →
    ∃ t, step s = .next t ∧ t.busy = none ∧ t.events = []

/-- 10_state.md R29, 20_memory.md R54, 70_reset_and_hazards.md R227: while a command waits for the block's turn, no access
of the host changes the command, its operands, its input or any other part of the record but DROP; so STATUS.BUSY reads 1
until the command has completed, and the input at the block's turn is the input at acceptance. -/
def Obligations.BusyWindowKeepsCommand : Prop :=
  ∀ (as : List HostAccess) (es : List Event) (s t : State) (w : Word),
    s.busy = some w → s.events = as.map .host ++ es →
    Host.Core.run Sys2Proof.core as.length s = .next t →
    t = { s with drop := t.drop, events := es, seen := t.seen, draws := t.draws } ∧
    ∃ v, t.HostSees (.regRead 0x08 4) (.word v) ∧ v.getLsbD 0 = true

/-- 20_memory.md R62 and 30_encoding.md R79: for a host that obeys the busy protocol a command is one event: operand
writes, the command and WAIT, from an idle block, leave what the command makes of the operands, whatever number of polls
finds the block busy; the last poll reads the STATUS it leaves, with BUSY = 0. WAIT as `k` polls that find the block busy, then
the block's turn, then the last poll, is the model's (logs 13 and 17). -/
def Obligations.CommandIsOneEvent : Prop :=
  ∀ (s : State) (src len dst : Word) (i : Instr) (k : Nat) (es : List Event), s.cfg.wf = true → s.busy = none →
    es = programEvents [.wr .src src, .wr .len len, .wr .dst dst, .cmd i, .wait k] →
    ∃ (t u : State) (polls : List Word) (last : Word),
      exec i { s with src := src, len := len, dst := dst, drop := false, busy := some (encode i), events := [] } =
        .next t ∧
      Host.Core.run Sys2Proof.core es.length { s with events := es } = .next u ∧
      u = { t with seen := u.seen, draws := u.draws } ∧
      u.seen = s.seen ++ polls.map Seen.word ++ [Seen.word last] ∧
      polls.length = k ∧ (∀ v ∈ polls, v.getLsbD 0 = true) ∧
      last = regValue t .status ∧ last.getLsbD 0 = false

/-- 93_implementation_defined.md U15 and 95_test_vectors.md P4: a write to DST that races with a command's completion may
land after it (it takes effect) or before it (it is dropped and sets DROP); the model has both runs, and the command does
the same in both. -/
def Obligations.RacingWriteBothOutcomes : Prop :=
  ∀ (s : State) (i : Instr) (v : Word), s.cfg.wf = true → s.busy = none →
    ∃ t, exec i { s with drop := false, busy := some (encode i), events := [] } = .next t ∧ t.drop = false ∧
      Host.Core.run Sys2Proof.core 3
        { s with events := [wrEvent .cmd (encode i), .block, wrEvent .dst v] } = .next { t with dst := v } ∧
      Host.Core.run Sys2Proof.core 3
        { s with events := [wrEvent .cmd (encode i), wrEvent .dst v, .block] } = .next { t with drop := true }

/-! ### The register window and the buffer, from the host -/

/-- 10_state.md R25: a CMD write is accepted while idle, dropped while busy; CMD reads 0. -/
def Obligations.CmdWriteAcceptedWhenIdle : Prop :=
  ∀ (s : State) (v : Word),
    (s.busy = none → hostAccess s (.regWrite 0x04 4 v) = .next { s with busy := some v, drop := false }) ∧
    (s.busy ≠ none → hostAccess s (.regWrite 0x04 4 v) = .next { s with drop := true }) ∧
    s.HostSees (.regRead 0x04 4) (.word 0)

/-- 10_state.md R23: what takes effect in the window, and what does not. -/
def Obligations.WindowAccessRules : Prop :=
  ∀ (s : State) (off : Byte) (size : Nat) (v : Word),
    (size ≠ 4 ∨ off.toNat % 4 ≠ 0 ∨ 0x2C ≤ off.toNat →
      s.HostSees (.regRead off size) (.word 0) ∧ hostAccess s (.regWrite off size v) = .next s) ∧
    (off ∈ ([0x00, 0x08, 0x18, 0x1C, 0x20, 0x24, 0x28] : List Byte) →
      hostAccess s (.regWrite off size v) = .next s) ∧
    (∃ x, s.HostSees (.regRead off size) x) ∧
    (s.busy ≠ none → off ∈ ([0x04, 0x0C, 0x10, 0x14] : List Byte) →
      hostAccess s (.regWrite off 4 v) = .next { s with drop := true })

/-- 10_state.md R30 to R32: while idle, SRC, LEN and DST take every value and read it back; no command changes them, nor
the configuration, nor DROP. -/
def Obligations.OperandRegisters : Prop :=
  (∀ (s : State) (v : Word), s.busy = none →
    hostAccess s (.regWrite 0x0C 4 v) = .next { s with src := v } ∧
    hostAccess s (.regWrite 0x10 4 v) = .next { s with len := v } ∧
    hostAccess s (.regWrite 0x14 4 v) = .next { s with dst := v }) ∧
  (∀ s : State, s.HostSees (.regRead 0x0C 4) (.word s.src) ∧ s.HostSees (.regRead 0x10 4) (.word s.len) ∧
    s.HostSees (.regRead 0x14 4) (.word s.dst)) ∧
  (∀ (i : Instr) (s t : State), exec i s = .next t →
    t.src = s.src ∧ t.len = s.len ∧ t.dst = s.dst ∧ t.cfg = s.cfg ∧ t.drop = s.drop ∧ t.events = s.events ∧
    t.seen = s.seen ∧ t.draws = s.draws ∧ t.powerOns = s.powerOns)

/-- 10_state.md R28: what sets and what clears DROP, over every step. -/
def Obligations.DropSetAndCleared : Prop :=
  ∀ s t : State, step s = .next t →
    (∀ off v es, off ∈ ([0x04, 0x0C, 0x10, 0x14] : List Byte) → s.busy ≠ none →
      s.events = .host (.regWrite off 4 v) :: es → t = { s with events := es, drop := true }) ∧
    (s.drop = false → t.drop = true → s.busy ≠ none ∧ ∃ off v es,
      off ∈ ([0x04, 0x0C, 0x10, 0x14] : List Byte) ∧ s.events = .host (.regWrite off 4 v) :: es) ∧
    (s.drop = true → t.drop = false →
      (s.busy = none ∧ ∃ v es, s.events = .host (.regWrite 0x04 4 v) :: es) ∨ ∃ es, s.events = .powerOn :: es) ∧
    (∀ v es, s.busy = none → s.events = .host (.regWrite 0x04 4 v) :: es → t.drop = false) ∧
    (∀ es, s.events = .powerOn :: es → t.drop = false)

/-- 10_state.md R26: the STATUS word a read returns, bit by bit; TREE_VALID and ERR while idle only (R29). -/
def Obligations.StatusFields : Prop :=
  ∀ s : State, ∃ w, s.HostSees (.regRead 0x08 4) (.word w) ∧
    (w.getLsbD 0 = true ↔ s.busy ≠ none) ∧ w.extractLsb' 2 2 = 0 ∧ w.getLsbD 8 = s.drop ∧ w.extractLsb' 9 23 = 0 ∧
    (s.busy = none → (w.getLsbD 1 = true ↔ s.tree ≠ none) ∧ w.extractLsb' 4 4 = s.err)

/-- 10_state.md R24, R33 to R36: what the other registers read while idle. -/
def Obligations.DerivedRegisters : Prop :=
  ∀ s : State, s.Inv → s.busy = none →
    s.HostSees (.regRead 0x00 4) (.word 0x48554631) ∧
    s.HostSees (.regRead 0x18 4) (.word s.result) ∧
    s.HostSees (.regRead 0x1C 4)
      (.word (BitVec.ofNat 32 ((allBytes.filter fun b => decide (histAt s.hist b ≠ 0)).length))) ∧
    s.HostSees (.regRead 0x20 4)
      (.word (BitVec.ofNat 32 ((allBytes.map fun b => (histAt s.hist b).toNat).sum))) ∧
    (allBytes.map fun b => (histAt s.hist b).toNat).sum ≤ 2 ^ 24 ∧
    (s.tree = none → s.HostSees (.regRead 0x24 4) (.word 0)) ∧
    (∀ t, s.tree = some t → s.HostSees (.regRead 0x24 4) (.word (BitVec.ofNat 32 (leafSyms t.arena).length)) ∧
      1 ≤ (leafSyms t.arena).length ∧ (leafSyms t.arena).length ≤ 256) ∧
    s.HostSees (.regRead 0x28 4) (.word (BitVec.ofNat 32 s.cfg.memBytes))

/-- 10_state.md R29: reads while busy: BUSY, DROP and the reserved bits of STATUS, and SRC, LEN, DST, ID and MEMSIZE, as
they are; the others some word, and each read uses up one free value. -/
def Obligations.ReadsWhileBusy : Prop :=
  ∀ s : State, s.busy ≠ none →
    (∃ w, s.HostSees (.regRead 0x08 4) (.word w) ∧ w.getLsbD 0 = true ∧ w.getLsbD 8 = s.drop ∧
      w.extractLsb' 2 2 = 0 ∧ w.extractLsb' 9 23 = 0) ∧
    s.HostSees (.regRead 0x0C 4) (.word s.src) ∧ s.HostSees (.regRead 0x10 4) (.word s.len) ∧
    s.HostSees (.regRead 0x14 4) (.word s.dst) ∧ s.HostSees (.regRead 0x00 4) (.word 0x48554631) ∧
    s.HostSees (.regRead 0x28 4) (.word (BitVec.ofNat 32 s.cfg.memBytes)) ∧
    (∀ off, off ∈ ([0x18, 0x1C, 0x20, 0x24] : List Byte) → ∃ w t, hostAccess s (.regRead off 4) = .next t ∧
      t = { s with seen := s.seen ++ [.word w], draws := s.draws + 1 })

/-- 20_memory.md R51: the host's buffer accesses, one byte each, while the block is idle; an access beyond the buffer is
refused. -/
def Obligations.HostBufferAccess : Prop :=
  ∀ (s : State) (a : Nat) (v : Byte),
    (s.busy = none → a < s.cfg.memBytes → s.HostSees (.bufRead a) (.byte (s.readByte a)) ∧
      ∃ t, hostAccess s (.bufWrite a v) = .next t ∧ t.readByte a = v ∧
        (∀ x, x ≠ a → t.readByte x = s.readByte x) ∧ t = { s with mem := t.mem }) ∧
    (s.cfg.memBytes ≤ a → hostAccess s (.bufRead a) = .refused .outsideBuffer ∧
      hostAccess s (.bufWrite a v) = .refused .outsideBuffer)

/-- 20_memory.md R52: the host's buffer accesses while a command is busy: a read returns some byte, a free value of its
own, and changes nothing; a write is refused. -/
def Obligations.HostBufferAccessWhileBusy : Prop :=
  ∀ (s : State) (a : Nat) (v : Byte), s.busy ≠ none → a < s.cfg.memBytes →
    (∃ w t, hostAccess s (.bufRead a) = .next t ∧
      t = { s with seen := s.seen ++ [.byte w], draws := s.draws + 1 }) ∧
    hostAccess s (.bufWrite a v) = .refused .bufferWriteWhileBusy

/-- 20_memory.md R50: on a platform whose two spaces do not overlap, a bus access at REG_BASE + offset reaches the window
at that offset, and a byte access at BUF_BASE + a reaches buffer address a, for every offset and address there is. -/
def Obligations.BusMapReachesBothSpaces : Prop :=
  ∀ (p : Platform) (c : Config), p.wf c = true →
    (∀ (off : Byte) (size : Nat) (v : Word),
      busRead p c (p.regBase + off.toNat) size = some (.regRead off size) ∧
      busWrite p c (p.regBase + off.toNat) size v = some (.regWrite off size v)) ∧
    (∀ (a : Nat) (b : Byte), a < c.memBytes →
      busRead p c (p.bufBase + a) 1 = some (.bufRead a) ∧
      busWrite p c (p.bufBase + a) 1 (b.setWidth 32) = some (.bufWrite a b))

/-! ### Reset -/

/-- 10_state.md R46: the state after power-on reset, for every value of the parameters, and what the registers read in it;
the byte each buffer address holds is free. A DECODE then gives an empty result, whatever its input. -/
def Obligations.PowerOnValues : Prop :=
  ∀ (c : Config) (r : State), r = { State.reset with cfg := c } →
    r.src = 0 ∧ r.len = 0 ∧ r.dst = 0 ∧ r.result = 0 ∧ r.err = 0 ∧ r.drop = false ∧ r.busy = none ∧
    (∀ b, histAt r.hist b = 0) ∧ r.tree = none ∧ (∀ b, codeAt r.code b = none) ∧
    (∀ a, r.readByte a = Config.powerOnByte 0 a) ∧
    r.HostSees (.regRead 0x08 4) (.word 0) ∧ r.HostSees (.regRead 0x00 4) (.word 0x48554631) ∧
    r.HostSees (.regRead 0x1C 4) (.word 0) ∧ r.HostSees (.regRead 0x20 4) (.word 0) ∧
    r.HostSees (.regRead 0x24 4) (.word 0) ∧
    r.HostSees (.regRead 0x28 4) (.word (BitVec.ofNat 32 c.memBytes)) ∧
    ∀ (m : Memory) (src len dst : Word) (s : State), s = { r with mem := m, src := src, len := len, dst := dst } →
      exec .decode s = .next s

/-- 70_reset_and_hazards.md R221: a power-on reset abandons a busy command, commits none of its effects and leaves the
values of R220; the buffer takes new free contents. -/
def Obligations.PowerOnAbandonsCommand : Prop :=
  ∀ (s : State) (es : List Event), s.cfg.wf = true → s.events = .powerOn :: es →
    ∃ t, step s = .next t ∧
      t = { State.reset with
        cfg := s.cfg, powerOns := s.powerOns + 1, draws := s.draws, events := es, seen := s.seen } ∧
      ∀ a, t.readByte a = Config.powerOnByte (s.powerOns + 1) a

/-! ### The whole machine -/

/-- 10_state.md R37: what writes the histogram, over every step. -/
def Obligations.HistogramWriters : Prop :=
  ∀ s t : State, step s = .next t →
    t.hist = s.hist ∨
    (t.hist = noCounts ∧ ∃ es, s.events = .powerOn :: es) ∨
    ∃ w i, s.busy = some w ∧ decode w = .instr i ∧ (s.events = [] ∨ ∃ es, s.events = .block :: es) ∧
      ((i = .reset ∧ t.hist = noCounts) ∨ (i = .count ∧ t.hist = count (inputText s)) ∨
       (i = .encode ∧ s.len ≠ 0 ∧ t.err = 0 ∧ t.hist = count (inputText s)))

/-- 10_state.md R40 and R42: the held tree and its code table are replaced only together and only as a whole, by BUILD on
a non-empty histogram, by a non-empty ENCODE without error, by RESET and by power-on reset, over every step. -/
def Obligations.TreeReplacedAsWhole : Prop :=
  ∀ s t : State, step s = .next t →
    (t.tree = s.tree ∧ t.code = s.code) ∨
    (t.tree = none ∧ t.code = noCodes ∧ ∃ es, s.events = .powerOn :: es) ∨
    ∃ w i, s.busy = some w ∧ decode w = .instr i ∧ (s.events = [] ∨ ∃ es, s.events = .block :: es) ∧
      ((i = .reset ∧ t.tree = none ∧ t.code = noCodes) ∨
       (∃ tr, i = .build ∧ (∃ b, histAt s.hist b ≠ 0) ∧ build s.cfg s.hist = some tr ∧
         t.tree = some tr ∧ t.code = codes tr.arena tr.root) ∨
       (∃ tr, i = .encode ∧ s.len ≠ 0 ∧ t.err = 0 ∧ build s.cfg (count (inputText s)) = some tr ∧
         t.tree = some tr ∧ t.code = codes tr.arena tr.root))

/-- 20_memory.md R54: no command writes a buffer address outside `[DST, DST + |out|)`; only ENCODE, DECODE and RDCODE
write at all, and then |out| is RESULT. -/
def Obligations.CommandWritesOnlyOutputRegion : Prop :=
  ∀ (i : Instr) (s t : State), s.cfg.wf = true → exec i s = .next t →
    (∀ a, a < s.dst.toNat ∨ s.dst.toNat + t.result.toNat ≤ a → t.readByte a = s.readByte a) ∧
    (i = .nop ∨ i = .reset ∨ i = .count ∨ i = .build ∨ (∃ b, i = .rdfreq b) → t.mem = s.mem)

/-- 20_memory.md R54: no command reads a buffer address outside `[SRC, SRC + LEN)`: two states that differ only in the
buffer, and agree there, end alike, and every byte is then the same in both or unchanged in both. -/
def Obligations.CommandReadsOnlyInputRegion : Prop :=
  ∀ (i : Instr) (s t : State) (m : Memory) (p : Nat) (s' t' : State), s' = { s with mem := m, powerOns := p } →
    (∀ a, s.src.toNat ≤ a → a < s.src.toNat + s.len.toNat → s.readByte a = s'.readByte a) →
    exec i s = .next t → exec i s' = .next t' →
    t' = { t with mem := t'.mem, powerOns := p } ∧
    ∀ a, t.readByte a = t'.readByte a ∨ (t.readByte a = s.readByte a ∧ t'.readByte a = s'.readByte a)

/-- 10_state.md R39, R42, 20_memory.md R50, 93_implementation_defined.md U18: every step keeps the invariant. -/
def Obligations.StepKeepsInvariant : Prop :=
  ∀ s t : State, s.Inv → step s = .next t → t.Inv

/-- The invariant holds after reset: in State.reset, which has the default parameters (log 1), and with any others that
00_scope.md R6 admits. -/
def Obligations.ResetMeetsInvariant : Prop :=
  State.reset.Inv ∧ ∀ c : Config, c.wf = true → State.Inv { State.reset with cfg := c }
end

