-- ==== Sys2Proof/Laws/State.lean ====
section
/-! SUPPORT. One lemma per field per update of the state, each true by unfolding the update. -/

namespace Sys2Proof.Machine

/-! ### `complete` -/

@[simp] theorem complete_cfg (s : State) (r : Word) : (complete s r).cfg = s.cfg := rfl
@[simp] theorem complete_src (s : State) (r : Word) : (complete s r).src = s.src := rfl
@[simp] theorem complete_len (s : State) (r : Word) : (complete s r).len = s.len := rfl
@[simp] theorem complete_dst (s : State) (r : Word) : (complete s r).dst = s.dst := rfl
@[simp] theorem complete_result (s : State) (r : Word) : (complete s r).result = r := rfl
@[simp] theorem complete_err (s : State) (r : Word) : (complete s r).err = 0 := rfl
@[simp] theorem complete_drop (s : State) (r : Word) : (complete s r).drop = s.drop := rfl
@[simp] theorem complete_busy (s : State) (r : Word) : (complete s r).busy = none := rfl
@[simp] theorem complete_hist (s : State) (r : Word) : (complete s r).hist = s.hist := rfl
@[simp] theorem complete_tree (s : State) (r : Word) : (complete s r).tree = s.tree := rfl
@[simp] theorem complete_code (s : State) (r : Word) : (complete s r).code = s.code := rfl
@[simp] theorem complete_mem (s : State) (r : Word) : (complete s r).mem = s.mem := rfl
@[simp] theorem complete_powerOns (s : State) (r : Word) : (complete s r).powerOns = s.powerOns := rfl
@[simp] theorem complete_draws (s : State) (r : Word) : (complete s r).draws = s.draws := rfl
@[simp] theorem complete_events (s : State) (r : Word) : (complete s r).events = s.events := rfl
@[simp] theorem complete_seen (s : State) (r : Word) : (complete s r).seen = s.seen := rfl

/-! ### `raiseCmdError` -/

@[simp] theorem raiseCmdError_cfg (s : State) (e : CmdError) (r : Word) : (raiseCmdError s e r).cfg = s.cfg := rfl
@[simp] theorem raiseCmdError_src (s : State) (e : CmdError) (r : Word) : (raiseCmdError s e r).src = s.src := rfl
@[simp] theorem raiseCmdError_len (s : State) (e : CmdError) (r : Word) : (raiseCmdError s e r).len = s.len := rfl
@[simp] theorem raiseCmdError_dst (s : State) (e : CmdError) (r : Word) : (raiseCmdError s e r).dst = s.dst := rfl
@[simp] theorem raiseCmdError_result (s : State) (e : CmdError) (r : Word) : (raiseCmdError s e r).result = r := rfl
@[simp] theorem raiseCmdError_err (s : State) (e : CmdError) (r : Word) : (raiseCmdError s e r).err = e.code := rfl
@[simp] theorem raiseCmdError_drop (s : State) (e : CmdError) (r : Word) : (raiseCmdError s e r).drop = s.drop := rfl
@[simp] theorem raiseCmdError_busy (s : State) (e : CmdError) (r : Word) : (raiseCmdError s e r).busy = none := rfl
@[simp] theorem raiseCmdError_hist (s : State) (e : CmdError) (r : Word) : (raiseCmdError s e r).hist = s.hist := rfl
@[simp] theorem raiseCmdError_tree (s : State) (e : CmdError) (r : Word) : (raiseCmdError s e r).tree = s.tree := rfl
@[simp] theorem raiseCmdError_code (s : State) (e : CmdError) (r : Word) : (raiseCmdError s e r).code = s.code := rfl
@[simp] theorem raiseCmdError_mem (s : State) (e : CmdError) (r : Word) : (raiseCmdError s e r).mem = s.mem := rfl
@[simp] theorem raiseCmdError_powerOns (s : State) (e : CmdError) (r : Word) : (raiseCmdError s e r).powerOns = s.powerOns := rfl
@[simp] theorem raiseCmdError_draws (s : State) (e : CmdError) (r : Word) : (raiseCmdError s e r).draws = s.draws := rfl
@[simp] theorem raiseCmdError_events (s : State) (e : CmdError) (r : Word) : (raiseCmdError s e r).events = s.events := rfl
@[simp] theorem raiseCmdError_seen (s : State) (e : CmdError) (r : Word) : (raiseCmdError s e r).seen = s.seen := rfl

/-! ### `acceptCommand` -/

@[simp] theorem acceptCommand_cfg (s : State) (w : Word) : (acceptCommand s w).cfg = s.cfg := rfl
@[simp] theorem acceptCommand_src (s : State) (w : Word) : (acceptCommand s w).src = s.src := rfl
@[simp] theorem acceptCommand_len (s : State) (w : Word) : (acceptCommand s w).len = s.len := rfl
@[simp] theorem acceptCommand_dst (s : State) (w : Word) : (acceptCommand s w).dst = s.dst := rfl
@[simp] theorem acceptCommand_result (s : State) (w : Word) : (acceptCommand s w).result = s.result := rfl
@[simp] theorem acceptCommand_err (s : State) (w : Word) : (acceptCommand s w).err = s.err := rfl
@[simp] theorem acceptCommand_drop (s : State) (w : Word) : (acceptCommand s w).drop = false := rfl
@[simp] theorem acceptCommand_busy (s : State) (w : Word) : (acceptCommand s w).busy = some w := rfl
@[simp] theorem acceptCommand_hist (s : State) (w : Word) : (acceptCommand s w).hist = s.hist := rfl
@[simp] theorem acceptCommand_tree (s : State) (w : Word) : (acceptCommand s w).tree = s.tree := rfl
@[simp] theorem acceptCommand_code (s : State) (w : Word) : (acceptCommand s w).code = s.code := rfl
@[simp] theorem acceptCommand_mem (s : State) (w : Word) : (acceptCommand s w).mem = s.mem := rfl
@[simp] theorem acceptCommand_powerOns (s : State) (w : Word) : (acceptCommand s w).powerOns = s.powerOns := rfl
@[simp] theorem acceptCommand_draws (s : State) (w : Word) : (acceptCommand s w).draws = s.draws := rfl
@[simp] theorem acceptCommand_events (s : State) (w : Word) : (acceptCommand s w).events = s.events := rfl
@[simp] theorem acceptCommand_seen (s : State) (w : Word) : (acceptCommand s w).seen = s.seen := rfl

/-! ### `placeCommand` -/

@[simp] theorem placeCommand_cfg (s : State) (w : Word) : (placeCommand s w).cfg = s.cfg := rfl
@[simp] theorem placeCommand_src (s : State) (w : Word) : (placeCommand s w).src = s.src := rfl
@[simp] theorem placeCommand_len (s : State) (w : Word) : (placeCommand s w).len = s.len := rfl
@[simp] theorem placeCommand_dst (s : State) (w : Word) : (placeCommand s w).dst = s.dst := rfl
@[simp] theorem placeCommand_result (s : State) (w : Word) : (placeCommand s w).result = s.result := rfl
@[simp] theorem placeCommand_err (s : State) (w : Word) : (placeCommand s w).err = s.err := rfl
@[simp] theorem placeCommand_drop (s : State) (w : Word) : (placeCommand s w).drop = false := rfl
@[simp] theorem placeCommand_busy (s : State) (w : Word) : (placeCommand s w).busy = some w := rfl
@[simp] theorem placeCommand_hist (s : State) (w : Word) : (placeCommand s w).hist = s.hist := rfl
@[simp] theorem placeCommand_tree (s : State) (w : Word) : (placeCommand s w).tree = s.tree := rfl
@[simp] theorem placeCommand_code (s : State) (w : Word) : (placeCommand s w).code = s.code := rfl
@[simp] theorem placeCommand_mem (s : State) (w : Word) : (placeCommand s w).mem = s.mem := rfl
@[simp] theorem placeCommand_powerOns (s : State) (w : Word) : (placeCommand s w).powerOns = s.powerOns := rfl
@[simp] theorem placeCommand_draws (s : State) (w : Word) : (placeCommand s w).draws = s.draws := rfl
@[simp] theorem placeCommand_events (s : State) (w : Word) : (placeCommand s w).events = [] := rfl
@[simp] theorem placeCommand_seen (s : State) (w : Word) : (placeCommand s w).seen = s.seen := rfl

/-! ### `holdTree` -/

@[simp] theorem holdTree_cfg (s : State) (t : HeldTree) : (holdTree s t).cfg = s.cfg := rfl
@[simp] theorem holdTree_src (s : State) (t : HeldTree) : (holdTree s t).src = s.src := rfl
@[simp] theorem holdTree_len (s : State) (t : HeldTree) : (holdTree s t).len = s.len := rfl
@[simp] theorem holdTree_dst (s : State) (t : HeldTree) : (holdTree s t).dst = s.dst := rfl
@[simp] theorem holdTree_result (s : State) (t : HeldTree) : (holdTree s t).result = s.result := rfl
@[simp] theorem holdTree_err (s : State) (t : HeldTree) : (holdTree s t).err = s.err := rfl
@[simp] theorem holdTree_drop (s : State) (t : HeldTree) : (holdTree s t).drop = s.drop := rfl
@[simp] theorem holdTree_busy (s : State) (t : HeldTree) : (holdTree s t).busy = s.busy := rfl
@[simp] theorem holdTree_hist (s : State) (t : HeldTree) : (holdTree s t).hist = s.hist := rfl
@[simp] theorem holdTree_tree (s : State) (t : HeldTree) : (holdTree s t).tree = some t := rfl
@[simp] theorem holdTree_code (s : State) (t : HeldTree) : (holdTree s t).code = codes t.arena t.root := rfl
@[simp] theorem holdTree_mem (s : State) (t : HeldTree) : (holdTree s t).mem = s.mem := rfl
@[simp] theorem holdTree_powerOns (s : State) (t : HeldTree) : (holdTree s t).powerOns = s.powerOns := rfl
@[simp] theorem holdTree_draws (s : State) (t : HeldTree) : (holdTree s t).draws = s.draws := rfl
@[simp] theorem holdTree_events (s : State) (t : HeldTree) : (holdTree s t).events = s.events := rfl
@[simp] theorem holdTree_seen (s : State) (t : HeldTree) : (holdTree s t).seen = s.seen := rfl

/-! ### `commitOutput` -/

@[simp] theorem commitOutput_cfg (s : State) (out : Text) : (commitOutput s out).cfg = s.cfg := rfl
@[simp] theorem commitOutput_src (s : State) (out : Text) : (commitOutput s out).src = s.src := rfl
@[simp] theorem commitOutput_len (s : State) (out : Text) : (commitOutput s out).len = s.len := rfl
@[simp] theorem commitOutput_dst (s : State) (out : Text) : (commitOutput s out).dst = s.dst := rfl
@[simp] theorem commitOutput_result (s : State) (out : Text) : (commitOutput s out).result = BitVec.ofNat 32 out.length := rfl
@[simp] theorem commitOutput_err (s : State) (out : Text) : (commitOutput s out).err = 0 := rfl
@[simp] theorem commitOutput_drop (s : State) (out : Text) : (commitOutput s out).drop = s.drop := rfl
@[simp] theorem commitOutput_busy (s : State) (out : Text) : (commitOutput s out).busy = none := rfl
@[simp] theorem commitOutput_hist (s : State) (out : Text) : (commitOutput s out).hist = s.hist := rfl
@[simp] theorem commitOutput_tree (s : State) (out : Text) : (commitOutput s out).tree = s.tree := rfl
@[simp] theorem commitOutput_code (s : State) (out : Text) : (commitOutput s out).code = s.code := rfl
@[simp] theorem commitOutput_mem (s : State) (out : Text) : (commitOutput s out).mem = writeText s.mem s.dst.toNat out := rfl
@[simp] theorem commitOutput_powerOns (s : State) (out : Text) : (commitOutput s out).powerOns = s.powerOns := rfl
@[simp] theorem commitOutput_draws (s : State) (out : Text) : (commitOutput s out).draws = s.draws := rfl
@[simp] theorem commitOutput_events (s : State) (out : Text) : (commitOutput s out).events = s.events := rfl
@[simp] theorem commitOutput_seen (s : State) (out : Text) : (commitOutput s out).seen = s.seen := rfl

/-! ### `logRead` -/

@[simp] theorem logRead_cfg (s : State) (v : Seen) : (logRead s v).cfg = s.cfg := rfl
@[simp] theorem logRead_src (s : State) (v : Seen) : (logRead s v).src = s.src := rfl
@[simp] theorem logRead_len (s : State) (v : Seen) : (logRead s v).len = s.len := rfl
@[simp] theorem logRead_dst (s : State) (v : Seen) : (logRead s v).dst = s.dst := rfl
@[simp] theorem logRead_result (s : State) (v : Seen) : (logRead s v).result = s.result := rfl
@[simp] theorem logRead_err (s : State) (v : Seen) : (logRead s v).err = s.err := rfl
@[simp] theorem logRead_drop (s : State) (v : Seen) : (logRead s v).drop = s.drop := rfl
@[simp] theorem logRead_busy (s : State) (v : Seen) : (logRead s v).busy = s.busy := rfl
@[simp] theorem logRead_hist (s : State) (v : Seen) : (logRead s v).hist = s.hist := rfl
@[simp] theorem logRead_tree (s : State) (v : Seen) : (logRead s v).tree = s.tree := rfl
@[simp] theorem logRead_code (s : State) (v : Seen) : (logRead s v).code = s.code := rfl
@[simp] theorem logRead_mem (s : State) (v : Seen) : (logRead s v).mem = s.mem := rfl
@[simp] theorem logRead_powerOns (s : State) (v : Seen) : (logRead s v).powerOns = s.powerOns := rfl
@[simp] theorem logRead_draws (s : State) (v : Seen) : (logRead s v).draws = if s.busy.isSome then s.draws + 1 else s.draws := rfl
@[simp] theorem logRead_events (s : State) (v : Seen) : (logRead s v).events = s.events := rfl
@[simp] theorem logRead_seen (s : State) (v : Seen) : (logRead s v).seen = s.seen ++ [v] := rfl

/-! ### `powerOnReset` -/

@[simp] theorem powerOnReset_cfg (s : State) : (powerOnReset s).cfg = s.cfg := rfl
@[simp] theorem powerOnReset_src (s : State) : (powerOnReset s).src = 0 := rfl
@[simp] theorem powerOnReset_len (s : State) : (powerOnReset s).len = 0 := rfl
@[simp] theorem powerOnReset_dst (s : State) : (powerOnReset s).dst = 0 := rfl
@[simp] theorem powerOnReset_result (s : State) : (powerOnReset s).result = 0 := rfl
@[simp] theorem powerOnReset_err (s : State) : (powerOnReset s).err = 0 := rfl
@[simp] theorem powerOnReset_drop (s : State) : (powerOnReset s).drop = false := rfl
@[simp] theorem powerOnReset_busy (s : State) : (powerOnReset s).busy = none := rfl
@[simp] theorem powerOnReset_hist (s : State) : (powerOnReset s).hist = noCounts := rfl
@[simp] theorem powerOnReset_tree (s : State) : (powerOnReset s).tree = none := rfl
@[simp] theorem powerOnReset_code (s : State) : (powerOnReset s).code = noCodes := rfl
@[simp] theorem powerOnReset_mem (s : State) : (powerOnReset s).mem = [] := rfl
@[simp] theorem powerOnReset_powerOns (s : State) : (powerOnReset s).powerOns = s.powerOns + 1 := rfl
@[simp] theorem powerOnReset_draws (s : State) : (powerOnReset s).draws = s.draws := rfl
@[simp] theorem powerOnReset_events (s : State) : (powerOnReset s).events = s.events := rfl
@[simp] theorem powerOnReset_seen (s : State) : (powerOnReset s).seen = s.seen := rfl

/-! ### The state after reset -/

@[simp] theorem reset_cfg : State.reset.cfg = Config.standard := rfl
@[simp] theorem reset_src : State.reset.src = 0 := rfl
@[simp] theorem reset_len : State.reset.len = 0 := rfl
@[simp] theorem reset_dst : State.reset.dst = 0 := rfl
@[simp] theorem reset_result : State.reset.result = 0 := rfl
@[simp] theorem reset_err : State.reset.err = 0 := rfl
@[simp] theorem reset_drop : State.reset.drop = false := rfl
@[simp] theorem reset_busy : State.reset.busy = none := rfl
@[simp] theorem reset_hist : State.reset.hist = noCounts := rfl
@[simp] theorem reset_tree : State.reset.tree = none := rfl
@[simp] theorem reset_code : State.reset.code = noCodes := rfl
@[simp] theorem reset_mem : State.reset.mem = [] := rfl
@[simp] theorem reset_powerOns : State.reset.powerOns = 0 := rfl
@[simp] theorem reset_draws : State.reset.draws = 0 := rfl
@[simp] theorem reset_events : State.reset.events = [] := rfl
@[simp] theorem reset_seen : State.reset.seen = [] := rfl

/-! ### Register writes -/

@[simp] theorem writeUnlessBusy_idle (s u : State) (h : s.busy = none) : writeUnlessBusy s u = u := by
  simp [writeUnlessBusy, h]

@[simp] theorem writeUnlessBusy_busy (s u : State) (w : Word) (h : s.busy = some w) :
    writeUnlessBusy s u = { s with drop := true } := by
  simp [writeUnlessBusy, h]

/-- The register an aligned 32-bit access at a register's own offset reaches is that register (R22). -/
@[simp] theorem accessedReg_offset (r : Reg) : accessedReg r.offset 4 = some r := by cases r <;> rfl

@[simp] theorem readWindow_idle (s : State) (r : Reg) (h : s.busy = none) :
    readWindow s r.offset 4 = regValue s r := by
  simp [readWindow, h]

@[simp] theorem readWindow_busy (s : State) (r : Reg) (w : Word) (h : s.busy = some w) :
    readWindow s r.offset 4 = regValueBusy s (Config.freeWord s.draws) r := by
  simp [readWindow, h]

@[simp] theorem writeWindow_offset (s : State) (r : Reg) (v : Word) :
    writeWindow s r.offset 4 v = writeReg s v r := by
  simp [writeWindow]

end Sys2Proof.Machine
end

