-- ==== Sys2Proof/Laws/Exec.lean ====
section
/-! SUPPORT. What each meaning and the step can do, said once, branch by branch. -/

namespace Sys2Proof.Machine

/-! ### The checks on an output (60_exceptions.md R194) -/

theorem outputError_none {s : State} {n : Nat} :
    outputError s n = none ↔ dstInRange s n ∧ ¬ overlap s n := by
  unfold outputError
  split
  · next h => exact ⟨(nomatch ·), fun h' => absurd h'.1 h⟩
  · next h =>
    have hd := Classical.not_not.mp h
    split
    · next ho => exact ⟨(nomatch ·), fun h' => absurd ho h'.2⟩
    · next ho => exact ⟨fun _ => ⟨hd, ho⟩, fun _ => rfl⟩

theorem outputError_some {s : State} {n : Nat} {e : CmdError} (h : outputError s n = some e) :
    (e = .dstRange ∧ ¬ dstInRange s n) ∨ (e = .overlap ∧ dstInRange s n ∧ overlap s n) := by
  unfold outputError at h
  split at h
  · next hd => cases h; exact .inl ⟨rfl, hd⟩
  · next hd =>
    split at h
    · next ho => cases h; exact .inr ⟨rfl, Classical.not_not.mp hd, ho⟩
    · cases h

/-! ### The meanings -/

theorem execCount_cases {s t : State} (h : execCount s = .next t) :
    (srcInRange s ∧ t = complete { s with hist := count (inputText s) }
      (BitVec.ofNat 32 (nsym (count (inputText s))))) ∨
    (¬ srcInRange s ∧ t = raiseCmdError s .srcRange 0) := by
  unfold execCount at h
  split at h
  · next hs => cases h; exact .inl ⟨hs, rfl⟩
  · next hs => cases h; exact .inr ⟨hs, rfl⟩

theorem execBuild_cases {s t : State} (h : execBuild s = .next t) :
    (build s.cfg s.hist = none ∧ t = complete s 0) ∨
    (∃ tr, build s.cfg s.hist = some tr ∧ t = complete (holdTree s tr) (BitVec.ofNat 32 (nsym s.hist))) := by
  unfold execBuild at h
  split at h
  · next hb => cases h; exact .inl ⟨hb, rfl⟩
  · next tr hb => cases h; exact .inr ⟨tr, hb, rfl⟩

theorem execRdcode_cases {b : Byte} {s t : State} (h : execRdcode b s = .next t) :
    (codeAt s.code b = none ∧ t = complete s 0) ∨
    (∃ w, codeAt s.code b = some w ∧ dstInRange s w.length ∧ t = commitOutput s (chars w)) ∨
    (∃ w, codeAt s.code b = some w ∧ ¬ dstInRange s w.length ∧
      t = raiseCmdError s .dstRange (BitVec.ofNat 32 w.length)) := by
  unfold execRdcode at h
  split at h
  · next hc => cases h; exact .inl ⟨hc, rfl⟩
  · next w hc =>
    split at h
    · next hd => cases h; exact .inr (.inl ⟨w, hc, hd, rfl⟩)
    · next hd => cases h; exact .inr (.inr ⟨w, hc, hd, rfl⟩)

/-- The five ends of ENCODE (R152). -/
theorem execEncode_cases {s t : State} (h : execEncode s = .next t) :
    (s.len = 0 ∧ t = complete s 0) ∨
    (s.len ≠ 0 ∧ ¬ srcInRange s ∧ t = raiseCmdError s .srcRange 0) ∨
    (s.len ≠ 0 ∧ srcInRange s ∧ build s.cfg (count (inputText s)) = none ∧ t = complete s 0) ∨
    (∃ tr e, s.len ≠ 0 ∧ srcInRange s ∧ build s.cfg (count (inputText s)) = some tr ∧
      outputError s (enc (inputText s) (codes tr.arena tr.root)).length = some e ∧
      t = raiseCmdError s e (BitVec.ofNat 32 (enc (inputText s) (codes tr.arena tr.root)).length)) ∨
    (∃ tr, s.len ≠ 0 ∧ srcInRange s ∧ build s.cfg (count (inputText s)) = some tr ∧
      outputError s (enc (inputText s) (codes tr.arena tr.root)).length = none ∧
      t = commitOutput (holdTree { s with hist := count (inputText s) } tr)
        (enc (inputText s) (codes tr.arena tr.root))) := by
  unfold execEncode at h
  split at h
  · next hl => cases h; exact .inl ⟨hl, rfl⟩
  · next hl =>
    split at h
    · next hs => cases h; exact .inr (.inl ⟨hl, hs, rfl⟩)
    · next hs =>
      have hs := Classical.not_not.mp hs
      simp only at h
      split at h
      · next hb => cases h; exact .inr (.inr (.inl ⟨hl, hs, hb, rfl⟩))
      · next tr hb =>
        split at h
        · next e he => cases h; exact .inr (.inr (.inr (.inl ⟨tr, e, hl, hs, hb, he, rfl⟩)))
        · next he => cases h; exact .inr (.inr (.inr (.inr ⟨tr, hl, hs, hb, he, rfl⟩)))

/-- The four ends of DECODE (R155). -/
theorem execDecode_cases {s t : State} (h : execDecode s = .next t) :
    ((s.tree = none ∨ s.len = 0) ∧ t = complete s 0) ∨
    (s.tree ≠ none ∧ s.len ≠ 0 ∧ ¬ srcInRange s ∧ t = raiseCmdError s .srcRange 0) ∨
    (∃ tr e, s.tree = some tr ∧ s.len ≠ 0 ∧ srcInRange s ∧
      outputError s (dec (inputText s) tr.arena tr.root).length = some e ∧
      t = raiseCmdError s e (BitVec.ofNat 32 (dec (inputText s) tr.arena tr.root).length)) ∨
    (∃ tr, s.tree = some tr ∧ s.len ≠ 0 ∧ srcInRange s ∧
      outputError s (dec (inputText s) tr.arena tr.root).length = none ∧
      t = commitOutput s (dec (inputText s) tr.arena tr.root)) := by
  unfold execDecode at h
  split at h
  · next ht => cases h; exact .inl ⟨.inl ht, rfl⟩
  · next tr ht =>
    split at h
    · next hl => cases h; exact .inl ⟨.inr hl, rfl⟩
    · next hl =>
      split at h
      · next hs => cases h; exact .inr (.inl ⟨by simp [ht], hl, hs, rfl⟩)
      · next hs =>
        have hs := Classical.not_not.mp hs
        simp only at h
        split at h
        · next e he => cases h; exact .inr (.inr (.inl ⟨tr, e, ht, hl, hs, he, rfl⟩))
        · next he => cases h; exact .inr (.inr (.inr ⟨tr, ht, hl, hs, he, rfl⟩))

/-! ### The branches of the meanings, as equations -/

theorem execCount_in {s : State} (h : srcInRange s) : execCount s =
    .next (complete { s with hist := count (inputText s) } (BitVec.ofNat 32 (nsym (count (inputText s))))) :=
  if_pos h

theorem execCount_out {s : State} (h : ¬ srcInRange s) : execCount s = .next (raiseCmdError s .srcRange 0) :=
  if_neg h

theorem execBuild_none {s : State} (h : build s.cfg s.hist = none) : execBuild s = .next (complete s 0) := by
  rw [execBuild, h]

theorem execBuild_some {s : State} {tr : HeldTree} (h : build s.cfg s.hist = some tr) :
    execBuild s = .next (complete (holdTree s tr) (BitVec.ofNat 32 (nsym s.hist))) := by
  rw [execBuild, h]

theorem execRdcode_none {b : Byte} {s : State} (h : codeAt s.code b = none) :
    execRdcode b s = .next (complete s 0) := by
  rw [execRdcode, h]

theorem execRdcode_in {b : Byte} {s : State} {w : Codeword} (h : codeAt s.code b = some w)
    (hd : dstInRange s w.length) : execRdcode b s = .next (commitOutput s (chars w)) := by
  rw [execRdcode, h]
  exact if_pos hd

theorem execRdcode_out {b : Byte} {s : State} {w : Codeword} (h : codeAt s.code b = some w)
    (hd : ¬ dstInRange s w.length) :
    execRdcode b s = .next (raiseCmdError s .dstRange (BitVec.ofNat 32 w.length)) := by
  rw [execRdcode, h]
  exact if_neg hd

theorem execEncode_empty {s : State} (h : s.len = 0) : execEncode s = .next (complete s 0) := if_pos h

theorem execEncode_out {s : State} (h : s.len ≠ 0) (hs : ¬ srcInRange s) :
    execEncode s = .next (raiseCmdError s .srcRange 0) := by
  rw [execEncode, if_neg h, if_pos hs]

theorem execEncode_noTree {s : State} (h : s.len ≠ 0) (hs : srcInRange s)
    (hb : build s.cfg (count (inputText s)) = none) : execEncode s = .next (complete s 0) := by
  rw [execEncode, if_neg h, if_neg (Classical.not_not.mpr hs)]
  simp only [hb]

theorem execEncode_error {s : State} {tr : HeldTree} {e : CmdError} (h : s.len ≠ 0) (hs : srcInRange s)
    (hb : build s.cfg (count (inputText s)) = some tr)
    (he : outputError s (enc (inputText s) (codes tr.arena tr.root)).length = some e) :
    execEncode s =
      .next (raiseCmdError s e (BitVec.ofNat 32 (enc (inputText s) (codes tr.arena tr.root)).length)) := by
  rw [execEncode, if_neg h, if_neg (Classical.not_not.mpr hs)]
  simp only [hb, he]

theorem execEncode_output {s : State} {tr : HeldTree} (h : s.len ≠ 0) (hs : srcInRange s)
    (hb : build s.cfg (count (inputText s)) = some tr)
    (he : outputError s (enc (inputText s) (codes tr.arena tr.root)).length = none) :
    execEncode s = .next (commitOutput (holdTree { s with hist := count (inputText s) } tr)
      (enc (inputText s) (codes tr.arena tr.root))) := by
  rw [execEncode, if_neg h, if_neg (Classical.not_not.mpr hs)]
  simp only [hb, he]

theorem execDecode_noTree {s : State} (h : s.tree = none) : execDecode s = .next (complete s 0) := by
  rw [execDecode, h]

theorem execDecode_empty {s : State} (h : s.len = 0) : execDecode s = .next (complete s 0) := by
  rw [execDecode]
  cases s.tree with
  | none => rfl
  | some tr => exact if_pos h

theorem execDecode_out {s : State} {tr : HeldTree} (ht : s.tree = some tr) (h : s.len ≠ 0)
    (hs : ¬ srcInRange s) : execDecode s = .next (raiseCmdError s .srcRange 0) := by
  rw [execDecode, ht]
  simp only [if_neg h]
  exact if_pos hs

theorem execDecode_error {s : State} {tr : HeldTree} {e : CmdError} (ht : s.tree = some tr) (h : s.len ≠ 0)
    (hs : srcInRange s) (he : outputError s (dec (inputText s) tr.arena tr.root).length = some e) :
    execDecode s =
      .next (raiseCmdError s e (BitVec.ofNat 32 (dec (inputText s) tr.arena tr.root).length)) := by
  rw [execDecode, ht]
  simp only [if_neg h, he]
  exact if_neg (Classical.not_not.mpr hs)

theorem execDecode_output {s : State} {tr : HeldTree} (ht : s.tree = some tr) (h : s.len ≠ 0)
    (hs : srcInRange s) (he : outputError s (dec (inputText s) tr.arena tr.root).length = none) :
    execDecode s = .next (commitOutput s (dec (inputText s) tr.arena tr.root)) := by
  rw [execDecode, ht]
  simp only [if_neg h, he]
  exact if_neg (Classical.not_not.mpr hs)

/-- A command neither reads nor writes DROP, the schedule or what the host has seen: changing them before it changes
them after it, and nothing else. -/
theorem exec_bookkeeping (i : Instr) (s : State) (d : Bool) (es : List Event) (sn : List Seen) (n : Nat) :
    ∃ t, exec i s = .next t ∧ exec i { s with drop := d, events := es, seen := sn, draws := n } =
      .next { t with drop := d, events := es, seen := sn, draws := n } := by
  cases i with
  | nop => exact ⟨_, rfl, rfl⟩
  | reset => exact ⟨_, rfl, rfl⟩
  | rdfreq b => exact ⟨_, rfl, rfl⟩
  | count =>
    by_cases h : srcInRange s
    · exact ⟨_, execCount_in h, execCount_in h⟩
    · exact ⟨_, execCount_out h, execCount_out h⟩
  | build =>
    cases h : build s.cfg s.hist with
    | none => exact ⟨_, execBuild_none h, execBuild_none h⟩
    | some tr => exact ⟨_, execBuild_some h, execBuild_some h⟩
  | rdcode b =>
    cases h : codeAt s.code b with
    | none => exact ⟨_, execRdcode_none h, execRdcode_none h⟩
    | some w =>
      by_cases hd : dstInRange s w.length
      · exact ⟨_, execRdcode_in h hd, execRdcode_in h hd⟩
      · exact ⟨_, execRdcode_out h hd, execRdcode_out h hd⟩
  | encode =>
    by_cases hl : s.len = 0
    · exact ⟨_, execEncode_empty hl, execEncode_empty hl⟩
    by_cases hs : srcInRange s
    · cases hb : build s.cfg (count (inputText s)) with
      | none => exact ⟨_, execEncode_noTree hl hs hb, execEncode_noTree hl hs hb⟩
      | some tr =>
        cases he : outputError s (enc (inputText s) (codes tr.arena tr.root)).length with
        | none => exact ⟨_, execEncode_output hl hs hb he, execEncode_output hl hs hb he⟩
        | some e => exact ⟨_, execEncode_error hl hs hb he, execEncode_error hl hs hb he⟩
    · exact ⟨_, execEncode_out hl hs, execEncode_out hl hs⟩
  | decode =>
    rcases Option.eq_none_or_eq_some s.tree with ht | ⟨tr, ht⟩
    · exact ⟨_, execDecode_noTree ht, execDecode_noTree ht⟩
    by_cases hl : s.len = 0
    · exact ⟨_, execDecode_empty hl, execDecode_empty hl⟩
    by_cases hs : srcInRange s
    · cases he : outputError s (dec (inputText s) tr.arena tr.root).length with
      | none => exact ⟨_, execDecode_output ht hl hs he, execDecode_output ht hl hs he⟩
      | some e => exact ⟨_, execDecode_error ht hl hs he, execDecode_error ht hl hs he⟩
    · exact ⟨_, execDecode_out ht hl hs, execDecode_out ht hl hs⟩

/-! ### The block's turn and the step -/

@[simp] theorem blockTurn_idle {s : State} (h : s.busy = none) : blockTurn s = .next s := by
  simp [blockTurn, h]

theorem blockTurn_instr {s : State} {w : Word} {i : Instr} (h : s.busy = some w)
    (hd : decode w = .instr i) : blockTurn s = exec i s := by
  simp [blockTurn, h, hd]

theorem blockTurn_illegal {s : State} {w : Word} {why : IllegalWord} (h : s.busy = some w)
    (hd : decode w = .illegal why) : blockTurn s = .next (raiseCmdError s .illegal 0) := by
  simp [blockTurn, h, hd, completeIllegal]

/-- What one step does, said once. -/
theorem step_cases {s t : State} (h : step s = .next t) :
    s.cfg.wf = true ∧
      ((s.events = [] ∧ blockTurn s = .next t) ∨
       (∃ es, s.events = .block :: es ∧ blockTurn { s with events := es } = .next t) ∨
       (∃ es, s.events = .powerOn :: es ∧ t = powerOnReset { s with events := es }) ∨
       (∃ a es, s.events = .host a :: es ∧ hostAccess { s with events := es } a = .next t)) := by
  unfold step at h
  split at h
  · next hc =>
    refine ⟨hc, ?_⟩
    unfold nextEvent at h
    split at h
    · next he => exact .inl ⟨he, h⟩
    · next e es he =>
      cases e with
      | host a => exact .inr (.inr (.inr ⟨a, es, he, h⟩))
      | block => exact .inr (.inl ⟨es, he, h⟩)
      | powerOn => exact .inr (.inr (.inl ⟨es, he, (by injection h with h; exact h.symm)⟩))
  · cases h

/-- What one access of the host does, said once. -/
theorem hostAccess_cases {s t : State} {a : HostAccess} (h : hostAccess s a = .next t) :
    (∃ off size, a = .regRead off size ∧ t = logRead s (.word (readWindow s off size))) ∨
    (∃ off size v, a = .regWrite off size v ∧ t = writeWindow s off size v) ∨
    (∃ x, a = .bufRead x ∧ x < s.cfg.memBytes ∧ t = logRead s (.byte (hostByte s x))) ∨
    (∃ x v, a = .bufWrite x v ∧ x < s.cfg.memBytes ∧ s.busy = none ∧
      t = { s with mem := Memory.write s.mem x v }) := by
  cases a with
  | regRead off size => cases h; exact .inl ⟨off, size, rfl, rfl⟩
  | regWrite off size v => cases h; exact .inr (.inl ⟨off, size, v, rfl, rfl⟩)
  | bufRead x =>
    simp only [hostAccess] at h
    split at h
    · cases h
    · next hx => cases h; exact .inr (.inr (.inl ⟨x, rfl, by omega, rfl⟩))
  | bufWrite x v =>
    simp only [hostAccess] at h
    split at h
    · cases h
    · next hx =>
      split at h
      · cases h
      · next hb =>
        cases h
        exact .inr (.inr (.inr ⟨x, v, rfl, by omega, by simpa using hb, rfl⟩))

end Sys2Proof.Machine
end

