-- ==== Sys2Proof/Laws/Memory.lean ====
section
/-! SUPPORT. The laws of the buffer memory: read after write, the canonical form, texts. -/

namespace Sys2Proof.Machine

/-! ### One byte -/

/-- A byte just written is read back. -/
@[simp] theorem Memory.read_write_same (m : Memory) (a : Nat) (v : Byte) :
    Memory.read (Memory.write m a v) a = some v := by
  induction m with
  | nil => simp [Memory.write, Memory.read]
  | cons p m ih =>
    obtain ⟨b, w⟩ := p
    rw [Memory.write]
    split
    · simp [Memory.read]
    · split
      · simp [Memory.read]
      · simp [Memory.read, *]

/-- A write leaves every other address alone. -/
theorem Memory.read_write_other (m : Memory) (a b : Nat) (v : Byte) (h : b ≠ a) :
    Memory.read (Memory.write m a v) b = Memory.read m b := by
  induction m with
  | nil => simp [Memory.write, Memory.read, h]
  | cons p m ih =>
    obtain ⟨c, w⟩ := p
    rw [Memory.write]
    split
    · simp [Memory.read, h]
    · split
      · next hac => subst hac; simp [Memory.read, h]
      · simp only [Memory.read, ih]

/-- What a write lists: the new pair, or a pair listed before. -/
theorem Memory.mem_write {m : Memory} {a : Nat} {v : Byte} {p : Host.Cell}
    (h : p ∈ Memory.write m a v) : p = (a, v) ∨ p ∈ m := by
  induction m with
  | nil => simpa [Memory.write] using h
  | cons q m ih =>
    obtain ⟨b, w⟩ := q
    rw [Memory.write] at h
    split at h
    · simpa using h
    · split at h
      · rcases List.mem_cons.mp h with h | h
        · exact .inl h
        · exact .inr (List.mem_cons_of_mem _ h)
      · rcases List.mem_cons.mp h with h | h
        · exact .inr (h ▸ List.mem_cons_self)
        · exact (ih h).imp id (List.mem_cons_of_mem _)

/-- A write keeps the canonical form. -/
theorem Memory.wf_write {m : Memory} (h : Memory.wf m) (a : Nat) (v : Byte) :
    Memory.wf (Memory.write m a v) := by
  induction m with
  | nil => simp [Memory.write, Memory.wf]
  | cons q m ih =>
    obtain ⟨b, w⟩ := q
    obtain ⟨hb, hm⟩ := List.pairwise_cons.mp h
    rw [Memory.write]
    split
    · next hab =>
      refine List.pairwise_cons.mpr ⟨fun p hp => ?_, h⟩
      rcases List.mem_cons.mp hp with rfl | hp
      · exact hab
      · exact hab.trans (hb p hp)
    · split
      · next hab => subst hab; exact List.pairwise_cons.mpr ⟨hb, hm⟩
      · refine List.pairwise_cons.mpr ⟨fun p hp => ?_, ih hm⟩
        rcases Memory.mem_write hp with rfl | hp
        · show b < a
          omega
        · exact hb p hp

/-- Reset memory has the canonical form. -/
theorem Memory.wf_nil : Memory.wf [] := List.Pairwise.nil

/-! ### Texts -/

@[simp] theorem writeText_nil (m : Memory) (a : Nat) : writeText m a [] = m := rfl

@[simp] theorem writeText_cons (m : Memory) (a : Nat) (b : Byte) (t : Text) :
    writeText m a (b :: t) = writeText (Memory.write m a b) (a + 1) t := rfl

theorem Memory.wf_writeText {m : Memory} (h : Memory.wf m) (a : Nat) (t : Text) :
    Memory.wf (writeText m a t) := by
  induction t generalizing m a with
  | nil => exact h
  | cons b t ih => exact ih (Memory.wf_write h a b) (a + 1)

/-- Outside `[a, a + |t|)` nothing changes. -/
theorem read_writeText_outside (m : Memory) (a : Nat) (t : Text) (x : Nat)
    (h : x < a ∨ a + t.length ≤ x) : Memory.read (writeText m a t) x = Memory.read m x := by
  induction t generalizing m a with
  | nil => rfl
  | cons b t ih =>
    rw [List.length_cons] at h
    rw [writeText_cons, ih _ _ (by omega), Memory.read_write_other _ _ _ _ (by omega)]

/-- Inside, byte `i` of the text stands at `a + i`. -/
theorem read_writeText_inside (m : Memory) (a : Nat) (t : Text) (i : Nat) (h : i < t.length) :
    Memory.read (writeText m a t) (a + i) = some t[i] := by
  induction t generalizing m a i with
  | nil => exact absurd h (Nat.not_lt_zero i)
  | cons b t ih =>
    cases i with
    | zero =>
      rw [writeText_cons, read_writeText_outside _ _ _ _ (by omega)]
      exact Memory.read_write_same m a b
    | succ i =>
      rw [writeText_cons, show a + (i + 1) = a + 1 + i by omega]
      exact ih (Memory.write m a b) (a + 1) i (by simpa using h)

/-- What a text write lists: an address inside the output region, or a pair listed before. -/
theorem Memory.mem_writeText {m : Memory} {a : Nat} {t : Text} {p : Host.Cell}
    (h : p ∈ writeText m a t) : (a ≤ p.1 ∧ p.1 < a + t.length) ∨ p ∈ m := by
  induction t generalizing m a with
  | nil => exact .inr h
  | cons b t ih =>
    rw [List.length_cons]
    rcases ih h with h | h
    · exact .inl (by omega)
    · rcases Memory.mem_write h with rfl | h
      · exact .inl ⟨Nat.le_refl _, by show a < _; omega⟩
      · exact .inr h

@[simp] theorem readText_length (s : State) (a n : Nat) : (readText s a n).length = n := by simp [readText]

theorem readText_getElem (s : State) (a n i : Nat) (h : i < (readText s a n).length) :
    (readText s a n)[i] = s.readByte (a + i) := by simp [readText]

@[simp] theorem inputText_length (s : State) : (inputText s).length = s.len.toNat := by simp [inputText]

/-- Two states that read the same bytes in a region hold the same text there. -/
theorem readText_congr {s t : State} {a n : Nat} (h : ∀ i, i < n → s.readByte (a + i) = t.readByte (a + i)) :
    readText s a n = readText t a n :=
  List.map_congr_left fun i hi => h i (List.mem_range.mp hi)

end Sys2Proof.Machine
end

