-- ==== Sys2Proof/Laws/PerInstr.lean ====
section
/-! SUPPORT. Per-instruction families: one lemma per constructor of `Instr`. -/

namespace Sys2Proof.Laws.EncodeLegal

/-- The command word of a well-formed instruction is legal (30_encoding.md R75). -/
def Statement (i : Instr) : Prop := i.wf = true → legalWord (encode i) = true

theorem nop : Statement .nop := fun _ => by decide
theorem reset : Statement .reset := fun _ => by decide
theorem count : Statement .count := fun _ => by decide
theorem build : Statement .build := fun _ => by decide
theorem encode : Statement .encode := fun _ => by decide
theorem decode : Statement .decode := fun _ => by decide
theorem rdcode (s : Byte) : Statement (.rdcode s) := fun _ => by revert s; decide +kernel
theorem rdfreq (s : Byte) : Statement (.rdfreq s) := fun _ => by revert s; decide +kernel

end Sys2Proof.Laws.EncodeLegal
end

