-- ==== Sys2Proof/Laws/Tables.lean ====
section
/-! SUPPORT. The laws of the histogram, the code table and the counting function. -/

namespace Sys2Proof.Machine

@[simp] theorem allBytes_length : allBytes.length = 256 := by simp [allBytes]

theorem mem_allBytes (b : Byte) : b ∈ allBytes := by
  refine List.mem_map.mpr ⟨b.toNat, List.mem_range.mpr b.isLt, ?_⟩
  simp

@[simp] theorem allBytes_getElem (i : Nat) (h : i < allBytes.length) : allBytes[i] = BitVec.ofNat 8 i := by
  simp [allBytes]

theorem allBytes_nodup : allBytes.Nodup := by
  refine List.Nodup.map_on (fun x hx y hy h => ?_) List.nodup_range
  have := congrArg BitVec.toNat h
  simp only [List.mem_range] at hx hy
  simp only [BitVec.toNat_ofNat] at this
  omega

/-! ### The histogram -/

@[simp] theorem histAt_noCounts (b : Byte) : histAt noCounts b = 0 := by
  simp [histAt, noCounts]

theorem histAt_bump (h : Hist) (a b : Byte) :
    histAt (bump h a) b = if a = b then histAt h b + 1 else histAt h b := by
  simp only [histAt, bump, Vector.getElem_set]
  split
  · next hab => rw [if_pos (BitVec.eq_of_toNat_eq hab)]; simp [hab]
  · next hab => rw [if_neg fun h => hab (congrArg BitVec.toNat h)]

/-- The counters in byte order. -/
theorem hist_toList (h : Hist) : h.toList = allBytes.map (histAt h) := by
  apply List.ext_getElem
  · simp
  · intro i h1 h2
    have hi : i < 256 := by simpa using h1
    simp only [List.getElem_map, allBytes_getElem, histAt, Vector.getElem_toList]
    congr 1
    simp [Nat.mod_eq_of_lt hi]

/-- The counters of a text after those already in `h` (40_histogram.md R90). -/
theorem histAt_foldl_bump (t : Text) (h : Hist) (b : Byte) :
    histAt (t.foldl bump h) b = histAt h b + BitVec.ofNat 32 (t.count b) := by
  induction t generalizing h with
  | nil => simp
  | cons a t ih =>
    rw [List.foldl_cons, ih, histAt_bump, List.count_cons]
    by_cases hab : a = b
    · subst hab
      simp [BitVec.ofNat_add, BitVec.add_assoc, BitVec.add_comm 1#32]
    · simp [hab]

/-! ### The code table -/

@[simp] theorem codeAt_noCodes (b : Byte) : codeAt noCodes b = none := by
  simp [codeAt, noCodes]

theorem codeAt_codeSet (k : CodeTable) (a b : Byte) (p : Codeword) :
    codeAt (codeSet k a p) b = if a = b then some p else codeAt k b := by
  simp only [codeAt, codeSet, Vector.getElem_set]
  split
  · next hab => rw [if_pos (BitVec.eq_of_toNat_eq hab)]
  · next hab => rw [if_neg fun h => hab (congrArg BitVec.toNat h)]

/-- Two code tables with the same entries are equal. -/
theorem codeTable_ext {k l : CodeTable} (h : ∀ b, codeAt k b = codeAt l b) : k = l := by
  apply Vector.ext
  intro i hi
  have := h (BitVec.ofNat 8 i)
  simpa [codeAt, Nat.mod_eq_of_lt hi] using this

/-- Two histograms with the same counters are equal. -/
theorem hist_ext {k l : Hist} (h : ∀ b, histAt k b = histAt l b) : k = l := by
  apply Vector.ext
  intro i hi
  have := h (BitVec.ofNat 8 i)
  simpa [histAt, Nat.mod_eq_of_lt hi] using this

/-- An entry of the table comes from a visit, or was there before. -/
theorem codeAt_foldl_codeSet {vs : List (Byte × Codeword)} {k : CodeTable} {b : Byte} {p : Codeword}
    (h : codeAt (vs.foldl (fun c v => codeSet c v.1 v.2) k) b = some p) : (b, p) ∈ vs ∨ codeAt k b = some p := by
  induction vs generalizing k with
  | nil => exact .inr h
  | cons v vs ih =>
    rw [List.foldl_cons] at h
    rcases ih h with hv | hk
    · exact .inl (List.mem_cons_of_mem _ hv)
    · rw [codeAt_codeSet] at hk
      split at hk
      · next hv =>
        obtain ⟨a, q⟩ := v
        obtain rfl : a = b := hv
        obtain rfl : q = p := Option.some.inj hk
        exact .inl List.mem_cons_self
      · exact .inr hk

/-! ### The codec functions -/

@[simp] theorem enc_nil (k : CodeTable) : enc [] k = [] := rfl

theorem enc_cons (b : Byte) (t : Text) (k : CodeTable) :
    enc (b :: t) k = ((codeAt k b).map chars).getD [] ++ enc t k := by simp [enc]

theorem enc_append (t u : Text) (k : CodeTable) : enc (t ++ u) k = enc t k ++ enc u k := by simp [enc]

@[simp] theorem chars_length (w : Codeword) : (chars w).length = w.length := by simp [chars]

@[simp] theorem isbit_bitchar (b : Bool) : isbit (bitchar b) = true := by cases b <;> rfl

end Sys2Proof.Machine
end

