-- ==== Sys2Proof/Laws/Tree.lean ====
section
/-! SUPPORT. The laws of the comparator, the collection and the walk. -/

namespace Sys2Proof.Machine

/-! ### Priorities -/

theorem prioLt_iff (p q : Prio) :
    prioLt p q = true ↔ p.weight < q.weight ∨ (p.weight = q.weight ∧
      (p.key < q.key ∨ (p.key = q.key ∧ p.index < q.index))) := by
  simp [prioLt]

theorem prioLt_irrefl (p : Prio) : prioLt p p = false := by simp [prioLt]

/-- Appending a node changes no priority of an index that was there (R115). -/
theorem prio_append (c : Config) (arena : List Node) (n : Node) (i : Nat) (h : i < arena.length) :
    prio c (arena ++ [n]) i = prio c arena i := by
  simp [prio, nodeWeight, tkey, List.getElem?_append_left h]

theorem nodeWeight_append (arena : List Node) (n : Node) (i : Nat) (h : i < arena.length) :
    nodeWeight (arena ++ [n]) i = nodeWeight arena i := by
  simp [nodeWeight, List.getElem?_append_left h]

/-! ### Extraction -/

theorem leastOf_mem (c : Config) (arena : List Node) (q : List Nat) (i : Nat) :
    leastOf c arena i q ∈ i :: q := by
  induction q generalizing i with
  | nil => simp [leastOf]
  | cons j q ih =>
    rw [leastOf]
    split
    · exact List.mem_cons_of_mem _ (ih j)
    · rcases List.mem_cons.mp (ih i) with h | h
      · rw [h]; exact List.mem_cons_self
      · exact List.mem_cons_of_mem _ (List.mem_cons_of_mem _ h)

/-- What extraction gives: a member, and the collection without it. -/
theorem extractLeast_some {c : Config} {arena : List Node} {q q' : List Nat} {m : Nat}
    (h : extractLeast c arena q = some (m, q')) : m ∈ q ∧ q' = q.erase m := by
  cases q with
  | nil => simp [extractLeast] at h
  | cons i q =>
    simp only [extractLeast, Option.some.injEq, Prod.mk.injEq] at h
    obtain ⟨rfl, rfl⟩ := h
    exact ⟨leastOf_mem c arena q i, rfl⟩

theorem extractLeast_none {c : Config} {arena : List Node} {q : List Nat} :
    extractLeast c arena q = none ↔ q = [] := by
  cases q <;> simp [extractLeast]

/-- The two cases of one pass of the merge loop (R115): fewer than two nodes, or one merge of two members. -/
theorem mergeLoop_succ (c : Config) (n : Nat) (arena : List Node) (q : List Nat) :
    (q.length < 2 ∧ mergeLoop c (n + 1) arena q = (arena, q)) ∨
    ∃ a b, a ∈ q ∧ b ∈ q.erase a ∧
      extractLeast c arena q = some (a, q.erase a) ∧
      extractLeast c arena (q.erase a) = some (b, (q.erase a).erase b) ∧
      mergeLoop c (n + 1) arena q =
        mergeLoop c n (arena ++ [.internal (nodeWeight arena a + nodeWeight arena b) a b])
          ((q.erase a).erase b ++ [arena.length]) := by
  rw [mergeLoop]
  cases h1 : extractLeast c arena q with
  | none =>
    have := extractLeast_none.mp h1
    exact .inl ⟨by simp [this], rfl⟩
  | some p =>
    obtain ⟨a, q1⟩ := p
    obtain ⟨ha, rfl⟩ := extractLeast_some h1
    cases h2 : extractLeast c arena (q.erase a) with
    | none =>
      refine .inl ⟨?_, by simp [h2]⟩
      have h0 : (q.erase a).length = 0 := by rw [extractLeast_none.mp h2]; rfl
      rw [List.length_erase_of_mem ha] at h0
      omega
    | some p =>
      obtain ⟨b, q2⟩ := p
      obtain ⟨hb, rfl⟩ := extractLeast_some h2
      exact .inr ⟨a, b, ha, hb, rfl, h2, by simp [h2]⟩

/-! ### Paths -/

@[simp] theorem followPath_nil (arena : List Node) (i : Nat) : followPath arena i [] = some i := rfl

theorem followPath_append (arena : List Node) (i : Nat) (p q : Codeword) :
    followPath arena i (p ++ q) = (followPath arena i p).bind fun j => followPath arena j q := by
  induction p generalizing i with
  | nil => rfl
  | cons b p ih =>
    simp only [List.cons_append, followPath]
    split
    · exact ih _
    · rfl

/-- Every visit of the walk is a leaf its path leads to (R117). -/
theorem walk_sound {arena : List Node} {n i : Nat} {p q : Codeword} {b : Byte}
    (h : (b, q) ∈ walk arena n i p) :
    ∃ r j w, q = p ++ r ∧ followPath arena i r = some j ∧ arena[j]? = some (.leaf w b) := by
  induction n generalizing i p with
  | zero => simp [walk] at h
  | succ n ih =>
    rw [walk] at h
    split at h
    · next w s hi =>
      simp only [List.mem_singleton, Prod.mk.injEq] at h
      obtain ⟨rfl, rfl⟩ := h
      exact ⟨[], i, w, by simp, rfl, hi⟩
    · next w l r hi =>
      rcases List.mem_append.mp h with h | h
      · obtain ⟨r', j, w', rfl, hf, hj⟩ := ih h
        exact ⟨false :: r', j, w', by simp, by simp [followPath, hi, hf], hj⟩
      · obtain ⟨r', j, w', rfl, hf, hj⟩ := ih h
        exact ⟨true :: r', j, w', by simp, by simp [followPath, hi, hf], hj⟩
    · simp at h

end Sys2Proof.Machine
end

