-- ==== Sys2Proof/Tests/Slice0.lean ====
section
/-! SUPPORT. Tests: expected values from spec/95_test_vectors.md and the encoding tables of spec/30_encoding.md; and,
for every obligation with hypotheses, a witness that meets them. -/

namespace Sys2Proof.Tests

open Sys2Proof Sys2Proof.Machine

/-! ### Helpers -/

/-- The outcome is a next state that satisfies `p`. -/
def nextIs (o : Host.Outcome State Fault Refusal) (p : State → Bool) : Bool :=
  match o with
  | .next t => p t
  | .fault _ => false
  | .refused _ => false

theorem nextIs_spec {o : Host.Outcome State Fault Refusal} {p : State → Bool} (h : nextIs o p = true) :
    ∃ t, o = .next t ∧ p t = true := by
  cases o with
  | next t => exact ⟨t, rfl, h⟩
  | fault r => exact nomatch r
  | refused r => exact absurd h (by simp [nextIs])

/-- '0'/'1' bytes. -/
def bits (l : List Nat) : Text := l.map fun n => if n = 0 then 0x30 else 0x31

/-- "aabbbcc". -/
def aabbbcc : Text := [0x61, 0x61, 0x62, 0x62, 0x62, 0x63, 0x63]

/-- The bitstring "10100001111" of V1. -/
def v1Bits : Text := bits [1, 0, 1, 0, 0, 0, 0, 1, 1, 1, 1]

/-- V1's histogram. -/
def v1Hist : Hist := ((noCounts.set 0x61 2).set 0x62 3).set 0x63 2

/-- V1's tree. -/
def v1Tree : HeldTree :=
  { arena := [.leaf 2 0x61, .leaf 3 0x62, .leaf 2 0x63, .internal 4 0 2, .internal 7 1 3], root := 4 }

/-- V1's code. -/
def v1Code : CodeTable := codeSet (codeSet (codeSet noCodes 0x61 [true, false]) 0x62 [false]) 0x63 [true, true]

/-- V2's tree. -/
def v2Tree : HeldTree := { arena := [.leaf 4 0x61], root := 0 }

/-- After power-on reset, with `t` written at `a` and the operands set. -/
def fresh (a : Nat) (t : Text) (src len dst : Word) : State :=
  { State.reset with mem := writeText [] a t, src := src, len := len, dst := dst }

/-- `fresh`, with V1's histogram, tree and code held. -/
def held (a : Nat) (t : Text) (src len dst : Word) : State :=
  { fresh a t src len dst with hist := v1Hist, tree := some v1Tree, code := v1Code }

/-- ERR and RESULT after a completion, with nothing busy. -/
def ends (e : BitVec 4) (r : Word) (t : State) : Bool :=
  decide (t.err = e) && decide (t.result = r) && decide (t.busy = none)

/-- The buffer holds `u` at `a`. -/
def holds (t : State) (a : Nat) (u : Text) : Bool := decide (readText t a u.length = u)

/-- The histogram and the code table, compared entry by entry. -/
def tables (t : State) (h : Hist) (k : CodeTable) : Bool :=
  decide (t.hist.toList = h.toList) && decide (t.code.toList = k.toList)

/-- Nothing but ERR, RESULT and busy differs. -/
def onlyEnds (s t : State) : Bool :=
  tables t s.hist s.code && decide (t.tree = s.tree ∧ t.mem = s.mem ∧ t.src = s.src ∧ t.len = s.len ∧ t.dst = s.dst ∧
    t.drop = s.drop ∧ t.cfg = s.cfg)

/-! ### Well-formedness (00_scope.md R6, 20_memory.md R50): ill-formed terms are refused -/

theorem test_wf_standard : Config.standard.wf = true := by decide
theorem test_wf_no_memory : { Config.standard with memBytes := 0 }.wf = false := by decide
theorem test_wf_too_much_memory : { Config.standard with memBytes := 2 ^ 24 + 1 }.wf = false := by decide
theorem test_wf_most_memory : { Config.standard with memBytes := 2 ^ 24 }.wf = true := by decide
theorem test_wf_key_too_low : { Config.standard with internalKey := -129 }.wf = false := by decide
theorem test_wf_key_too_high : { Config.standard with internalKey := 256 }.wf = false := by decide
theorem test_wf_keys_at_bounds : { Config.standard with internalKey := -128 }.wf = true ∧
    { Config.standard with internalKey := 255 }.wf = true := by decide
theorem test_wf_platform_overlap : Platform.wf ⟨0x100, 0x1FF⟩ Config.standard = false ∧
    Platform.wf ⟨0x100FF, 0x100⟩ Config.standard = false := by decide
theorem test_wf_platform_adjacent : Platform.wf ⟨0x100, 0x200⟩ Config.standard = true ∧
    Platform.wf ⟨0x10100, 0x100⟩ Config.standard = true := by decide
theorem test_wf_instr : Instr.wf (.rdcode 0xFF) = true ∧ Instr.wf .nop = true := by decide
theorem test_step_refuses_config :
    step { State.reset with cfg := { Config.standard with memBytes := 0 } } = .refused .configNotAdmitted := by rfl

/-! ### Decoding (30_encoding.md R71, R73, R75; words written out from the encoding: OP 7:0, SYM 15:8, RSV 31:16) -/

theorem test_decode_nop : decode (0b0000000000000000#16 ++ 0b00000000#8 ++ 0b00000000#8) = .instr .nop := by decide
theorem test_decode_reset : decode (0b0000000000000000#16 ++ 0b00000000#8 ++ 0b00000001#8) = .instr .reset := by decide
theorem test_decode_count : decode (0b0000000000000000#16 ++ 0b00000000#8 ++ 0b00000010#8) = .instr .count := by decide
theorem test_decode_build : decode (0b0000000000000000#16 ++ 0b00000000#8 ++ 0b00000011#8) = .instr .build := by decide
theorem test_decode_encode : decode (0b0000000000000000#16 ++ 0b00000000#8 ++ 0b00000100#8) = .instr .encode := by decide
theorem test_decode_decode : decode (0b0000000000000000#16 ++ 0b00000000#8 ++ 0b00000101#8) = .instr .decode := by decide
theorem test_decode_rdcode :
    decode (0b0000000000000000#16 ++ 0b01100001#8 ++ 0b00000110#8) = .instr (.rdcode 0x61) := by decide
theorem test_decode_rdfreq :
    decode (0b0000000000000000#16 ++ 0b01100010#8 ++ 0b00000111#8) = .instr (.rdfreq 0x62) := by decide

/-- V91. -/
theorem test_decode_edges : decode 0x0000FF06 = .instr (.rdcode 0xFF) ∧ decode 0x00000006 = .instr (.rdcode 0) ∧
    decode 0x0000FF07 = .instr (.rdfreq 0xFF) := by decide

/-- V90: every illegal word of the table, with the reason. -/
theorem test_decode_illegal :
    decode 0x00000008 = .illegal .reservedOpcode ∧ decode 0x000000FF = .illegal .reservedOpcode ∧
    decode 0x00000102 = .illegal .symNonzero ∧ decode 0x00006104 = .illegal .symNonzero ∧
    decode 0x00010000 = .illegal .rsvNonzero ∧ decode 0x00010006 = .illegal .rsvNonzero ∧
    decode 0xFFFFFFFF = .illegal .rsvNonzero := by decide

theorem test_illegal_words_not_legal : [0x00000008, 0x000000FF, 0x00000102, 0x00006104, 0x00010000, 0x00010006,
    0xFFFFFFFF].all (fun w => !legalWord w) = true := by decide

theorem test_decodeTableWord : decodeTableWord 32 0x6106 = some (.rdcode 0x61) ∧ decodeTableWord 8 5 = some .decode ∧
    decodeTableWord 32 0x10000 = none := by decide

/-! ### One step or one command, from the vectors -/

/-- V61: NOP clears ERR. -/
theorem test_nop_clears_err : nextIs (exec .nop { held 0 aabbbcc 0 7 0x100 with err := 3, result := 4 })
    (fun t => ends 0 4 t && onlyEnds (held 0 aabbbcc 0 7 0x100) t && decide (regValue t .status = 0x02)) = true := by
  decide +kernel

/-- V62: RESET. -/
theorem test_reset_command : nextIs (exec .reset { held 0x100 v1Bits 0 7 0x100 with result := 11 })
    (fun t => ends 0 0 t && holds t 0x100 v1Bits && decide (t.src = 0 ∧ t.len = 7 ∧ t.dst = 0x100) &&
      decide (regValue t .status = 0 ∧ regValue t .nsym = 0 ∧ regValue t .total = 0 ∧ regValue t .nleaf = 0)) =
    true := by decide +kernel

/-- V30: COUNT. -/
theorem test_count : nextIs (exec .count (fresh 0 aabbbcc 0 7 0))
    (fun t => ends 0 3 t && tables t v1Hist noCodes && decide (regValue t .total = 7)) = true := by decide +kernel

/-- V32: COUNT of 0x00, 0x00, 0xFF. -/
theorem test_count_edge_symbols : nextIs (exec .count (fresh 0 [0, 0, 0xFF] 0 3 0))
    (fun t => ends 0 2 t && decide (histAt t.hist 0 = 2 ∧ histAt t.hist 0xFF = 1)) = true := by decide +kernel

/-- V21: BUILD. -/
theorem test_build : nextIs (exec .build { State.reset with hist := v1Hist })
    (fun t => ends 0 3 t && decide (t.tree = some v1Tree) && tables t v1Hist v1Code &&
      decide (regValue t .status = 0x02 ∧ regValue t .nleaf = 3)) = true := by decide +kernel

/-- V12: SIGNED puts 0x80 first: a=10, b=11, 0x80=0. -/
theorem test_build_signed : nextIs (exec .build { State.reset with
      cfg := { Config.standard with symOrder := .signed }
      hist := ((noCounts.set 0x61 1).set 0x62 1).set 0x80 2 })
    (fun t => ends 0 3 t && decide (codeAt t.code 0x61 = some [true, false] ∧ codeAt t.code 0x62 = some [true, true] ∧
      codeAt t.code 0x80 = some [false])) = true := by decide +kernel

/-- V40: ENCODE. -/
theorem test_encode : nextIs (exec .encode (fresh 0 aabbbcc 0 7 0x100))
    (fun t => ends 0 11 t && holds t 0x100 v1Bits && tables t v1Hist v1Code && decide (t.tree = some v1Tree))
    = true := by decide +kernel

/-- V81: DST_RANGE is checked before OVERLAP, and nothing else changes. -/
theorem test_encode_order_of_checks : nextIs (exec .encode (held 0xFFF5 aabbbcc 0xFFF5 7 0xFFF8))
    (fun t => ends 3 11 t && onlyEnds (held 0xFFF5 aabbbcc 0xFFF5 7 0xFFF8) t) = true := by decide +kernel

/-- V41: DECODE. -/
theorem test_decode_command : nextIs (exec .decode (held 0x100 v1Bits 0x100 11 0x200))
    (fun t => ends 0 7 t && holds t 0x200 aabbbcc) = true := by decide +kernel

/-- V42: "0a1b" gives "b": malformed bytes are skipped and the partial path is dropped. -/
theorem test_decode_malformed : nextIs (exec .decode (held 0x100 [0x30, 0x61, 0x31, 0x62] 0x100 4 0x200))
    (fun t => ends 0 1 t && holds t 0x200 [0x62]) = true := by decide +kernel

/-- V21: RDCODE 'a' writes "10". -/
theorem test_rdcode : nextIs (exec (.rdcode 0x61) (held 0 [] 0 0 0x40))
    (fun t => ends 0 2 t && holds t 0x40 [0x31, 0x30]) = true := by decide +kernel

/-- V87: RDCODE 'a' at 0xFFFF. -/
theorem test_rdcode_out_of_range : nextIs (exec (.rdcode 0x61) (held 0 [] 0 0 0xFFFF))
    (fun t => ends 3 2 t && onlyEnds (held 0 [] 0 0 0xFFFF) t) = true := by decide +kernel

/-- V30: RDFREQ. -/
theorem test_rdfreq : nextIs (exec (.rdfreq 0x62) (held 0 [] 0 0 0)) (ends 0 3) = true ∧
    nextIs (exec (.rdfreq 0x7A) (held 0 [] 0 0 0)) (ends 0 0) = true := by decide +kernel

/-- V90: an illegal word completes with ERR = 1, and STATUS reads 0x12. -/
theorem test_illegal_word : nextIs (step ((held 0 aabbbcc 0 7 0x100).withFetchWord 32 0x00000102))
    (fun t => ends 1 0 t && decide (regValue t .status = 0x12)) = true := by decide +kernel

/-- The step after reset runs the placed command. -/
theorem test_step_runs_placed_command : nextIs (step (State.reset.withFetchWord 32 0x00000003)) (ends 0 0) = true := by
  decide +kernel

/-- V9: with P_INTERNAL_KEY = 97 the leaf wins the tie. -/
theorem test_build_internal_key : (build { Config.standard with internalKey := 97 } (count [0x61, 0x61, 0x62, 0x63])).map
    (fun t => (t.root, t.arena[4]?)) = some (4, some (.internal 4 0 3)) := by decide +kernel

/-- V8: the creation order decides between nodes 4 and 5. -/
theorem test_build_creation_order : build Config.standard (count [0x61, 0x62, 0x63, 0x64]) =
    some { arena := [.leaf 1 0x61, .leaf 1 0x62, .leaf 1 0x63, .leaf 1 0x64, .internal 2 0 1, .internal 2 2 3,
      .internal 4 4 5], root := 6 } := by decide +kernel

/-- V95: reads and writes that reach no register. -/
theorem test_window : readWindow State.reset 0x00 4 = 0x48554631 ∧ readWindow State.reset 0x2C 4 = 0 ∧
    readWindow State.reset 0xFC 4 = 0 ∧ readWindow { State.reset with err := 3 } 0x08 1 = 0 ∧
    writeWindow State.reset 0x0D 4 5 = State.reset ∧ writeWindow State.reset 0x18 4 5 = State.reset :=
  ⟨rfl, rfl, rfl, rfl, rfl, rfl⟩

/-- V96: a LEN write while busy is dropped and sets DROP; STATUS reads 0x102 after completion. -/
theorem test_drop : (writeWindow { State.reset with busy := some 4, len := 7 } 0x10 4 3).len = 7 ∧
    (writeWindow { State.reset with busy := some 4, len := 7 } 0x10 4 3).drop = true ∧
    statusWord false true 0 true = 0x102 := by decide +kernel

/-! ### Witnesses: concrete states and operands that meet the hypotheses of the obligations -/

/-- V1's end state, with the operands of V40. -/
def full : State := held 0 aabbbcc 0 7 0x100

/-- `full`, with a command word accepted and waiting. -/
def busyWith (w : Word) : State := { full with busy := some w }

theorem v1_build : build Config.standard v1Hist = some v1Tree := by decide +kernel

theorem v2_build : build Config.standard (count [0x61, 0x61, 0x61, 0x61]) = some v2Tree := by decide +kernel

theorem v1_wf : HeldTree.Wf .unsigned v1Tree 3 where
  atLeast := by decide
  atMost := by decide
  leaves := by decide
  size := by decide
  leafFirst := by decide
  ascending := by decide
  internals := by
    intro k h1 h2
    have h2 : k < 5 := h2
    interval_cases k <;> decide
  rootIndex := by decide
  oneParent := by decide

/-- A state other than reset that meets the invariant. -/
theorem full_inv : full.Inv where
  config := by decide
  memForm := by decide +kernel
  memBound := by decide +kernel
  errCode := by decide
  counts := by decide +kernel
  held := by
    intro t ht
    cases ht
    exact ⟨v1_wf, Vector.toList_inj.mp (by decide +kernel)⟩
  noTree := fun h => nomatch h

theorem held_inv (a : Nat) (t : Text) (src len dst : Word) (h1 : Memory.wf (writeText [] a t))
    (h2 : ∀ p ∈ writeText [] a t, p.1 < 65536) : (held a t src len dst).Inv where
  config := full_inv.config
  memForm := h1
  memBound := h2
  errCode := full_inv.errCode
  counts := full_inv.counts
  held := full_inv.held
  noTree := full_inv.noTree

theorem witness_DecodeFollowsOpcodeTable :
    (∃ w, cmdRsv w ≠ 0) ∧ (∃ w, cmdRsv w = 0 ∧ cmdOp w = 0x06) ∧ (∃ w, cmdRsv w = 0 ∧ cmdOp w = 0x07) ∧
    (∃ w, cmdRsv w = 0 ∧ (cmdOp w).toNat ≤ 5 ∧ cmdSym w = 0) ∧
    (∃ w, cmdRsv w = 0 ∧ (cmdOp w).toNat ≤ 5 ∧ cmdSym w ≠ 0) ∧ (∃ w, cmdRsv w = 0 ∧ 8 ≤ (cmdOp w).toNat) ∧
    (∃ w i, decode w = .instr i) ∧ (∃ w why, decode w = .illegal why) :=
  ⟨⟨0x00010006, by decide⟩, ⟨0x0000FF06, by decide⟩, ⟨0x00000007, by decide⟩, ⟨0x00000005, by decide⟩,
    ⟨0x00000105, by decide⟩, ⟨0x00000008, by decide⟩, ⟨0x00000005, .decode, by decide⟩,
    ⟨0x000000FF, .reservedOpcode, by decide⟩⟩

theorem witness_IllegalWordCompletes : full.busy = none ∧
    (∃ w, 8 ≤ (cmdOp w).toNat) ∧ (∃ w, cmdRsv w ≠ 0) ∧ (∃ w, cmdSym w ≠ 0 ∧ (cmdOp w).toNat ≤ 5) :=
  ⟨by decide, ⟨0x00000008, by decide⟩, ⟨0x00010000, by decide⟩, ⟨0x00000105, by decide⟩⟩

theorem witness_ResetCommandGivesFreshCore : ∃ t u : State, exec .reset full = .next t ∧ u.tree = t.tree ∧
    u.code = t.code ∧ u.len ≠ 0 := ⟨_, { full with tree := none, code := noCodes }, rfl, rfl, rfl, by decide⟩

theorem witness_ResetCommandAndPowerOnDiffer : full.busy = none ∧ full.src.toNat + 7 = full.len.toNat := by decide

theorem witness_CountIsOccurrences : ([0x61, 0x62, 0x61] : Text).Perm [0x62, 0x61, 0x61] := by decide

/-- V71, the last byte of the buffer; V72, an empty region. -/
theorem witness_CountersNeverWrap : (fresh 0xFFFF [0x61] 0xFFFF 1 0).cfg.wf = true ∧
    srcInRange (fresh 0xFFFF [0x61] 0xFFFF 1 0) ∧ srcInRange (fresh 0 [] 0x10000 0 0) := by decide +kernel

/-- V71 and V70. -/
theorem witness_CountResult : srcInRange (fresh 0xFFFF [0x61] 0xFFFF 1 0) ∧
    ¬ srcInRange (fresh 0xFFFF [0x61] 0xFFFF 2 0) := by decide +kernel

theorem witness_RdfreqResult : ∃ t u : State, exec .reset full = .next t ∧ exec (.rdfreq 0x62) t = .next u :=
  ⟨_, _, rfl, rfl⟩

theorem witness_PriorityIsStrictTotalOrder :
    prioLt (prio .standard v1Tree.arena 0) (prio .standard v1Tree.arena 2) = true ∧
    prioLt (prio .standard v1Tree.arena 2) (prio .standard v1Tree.arena 1) = true ∧
    ([2, 1, 0] : List Nat).Nodup ∧ ([2, 1, 0] : List Nat) ≠ [] := by decide

theorem witness_BuildSeedsLeavesInOrder : (build .standard v1Hist = some v1Tree) ∧ build .standard noCounts = none ∧
    ∀ b, histAt noCounts b = 0 := ⟨v1_build, by decide +kernel, histAt_noCounts⟩

theorem witness_SingleSymbolTree : histAt (count [0x61, 0x61, 0x61, 0x61]) 0x61 ≠ 0 ∧
    ∀ a, a ≠ 0x61 → histAt (count [0x61, 0x61, 0x61, 0x61]) a = 0 := by
  refine ⟨by decide +kernel, fun a ha => ?_⟩
  rw [count, histAt_foldl_bump, histAt_noCounts, List.count_eq_zero_of_not_mem (by simpa using ha)]
  rfl

theorem witness_MergeTakesTwoLeast : build .standard v1Hist = some v1Tree ∧
    v1Tree.arena[3]? = some (.internal 4 0 2) ∧ 1 < 3 ∧ (1 : Nat) ≠ 0 ∧ (1 : Nat) ≠ 2 ∧
    ∀ (m : Nat) (v : Word) (x y : Nat), m < 3 → v1Tree.arena[m]? = some (.internal v x y) → 1 ≠ x ∧ 1 ≠ y := by
  refine ⟨v1_build, by decide, by decide, by decide, by decide, ?_⟩
  intro m v x y hm h
  interval_cases m <;> cases h

/-- The four ties: two leaves and two internal nodes (V8), a leaf before an internal node (V13), an internal node
before a leaf (V9). -/
theorem witness_TieOrderOfChildren :
    (∃ t, build .standard (count [0x61, 0x62, 0x63, 0x64]) = some t ∧
      t.arena[4]? = some (.internal 2 0 1) ∧ t.arena[0]? = some (.leaf 1 0x61) ∧ t.arena[1]? = some (.leaf 1 0x62) ∧
      t.arena[6]? = some (.internal 4 4 5) ∧ t.arena[5]? = some (.internal 2 2 3)) ∧
    (∃ t, build .standard (count [0x00, 0x00, 0x61, 0x62]) = some t ∧
      t.arena[4]? = some (.internal 4 0 3) ∧ t.arena[0]? = some (.leaf 2 0x00) ∧
      t.arena[3]? = some (.internal 2 1 2)) ∧
    (∃ t, build .standard (count [0x61, 0x61, 0x62, 0x63]) = some t ∧
      t.arena[4]? = some (.internal 4 3 0) ∧ t.arena[3]? = some (.internal 2 1 2) ∧
      t.arena[0]? = some (.leaf 2 0x61)) :=
  ⟨⟨{ arena := [.leaf 1 0x61, .leaf 1 0x62, .leaf 1 0x63, .leaf 1 0x64, .internal 2 0 1, .internal 2 2 3,
      .internal 4 4 5], root := 6 }, by decide +kernel⟩,
    ⟨{ arena := [.leaf 2 0x00, .leaf 1 0x61, .leaf 1 0x62, .internal 2 1 2, .internal 4 0 3], root := 4 },
      by decide +kernel⟩,
    ⟨{ arena := [.leaf 2 0x61, .leaf 1 0x62, .leaf 1 0x63, .internal 2 1 2, .internal 4 3 0], root := 4 },
      by decide +kernel⟩⟩

theorem witness_BuildMeetsTreeInvariant : total v1Hist < 2 ^ 32 ∧ build .standard v1Hist = some v1Tree :=
  ⟨by decide +kernel, v1_build⟩

theorem witness_CodewordIsPathToLeaf : (build .standard v1Hist = some v1Tree ∧
      v1Tree.arena[v1Tree.root]? = some (.internal 7 1 3) ∧ 0x61 ∈ leafSyms v1Tree.arena) ∧
    (build .standard (count [0x61, 0x61, 0x61, 0x61]) = some v2Tree ∧
      v2Tree.arena[v2Tree.root]? = some (.leaf 4 0x61)) :=
  ⟨⟨v1_build, by decide, by decide⟩, v2_build, by decide⟩

/-- Two states with the same histogram and parameters and everything else different. -/
theorem witness_BuildIsDeterministic : ∃ s s' t t' : State, s.hist = s'.hist ∧ s.cfg.symOrder = s'.cfg.symOrder ∧
    s.cfg.internalKey = s'.cfg.internalKey ∧ s.tree ≠ s'.tree ∧ (∃ b, histAt s.hist b ≠ 0) ∧
    exec .build s = .next t ∧ exec .build s' = .next t' := by
  obtain ⟨t, ht, -⟩ := nextIs_spec (by decide +kernel : nextIs (exec .build full) (fun _ => true) = true)
  obtain ⟨t', ht', -⟩ := nextIs_spec
    (by decide +kernel : nextIs (exec .build { State.reset with hist := v1Hist }) (fun _ => true) = true)
  exact ⟨full, { State.reset with hist := v1Hist }, t, t', rfl, rfl, rfl, by decide, ⟨0x61, by decide +kernel⟩, ht, ht'⟩

theorem witness_BuildResult : (∀ b, histAt State.reset.hist b = 0) ∧ ∃ b, histAt full.hist b ≠ 0 :=
  ⟨histAt_noCounts, 0x61, by decide +kernel⟩

/-- V89, V88 (the last byte of the buffer) and V87. -/
theorem witness_RdcodeResult : codeAt full.code 0x7A = none ∧
    codeAt full.code 0x62 = some [false] ∧ dstInRange (held 0 [] 0 0 0xFFFF) 1 ∧
    codeAt full.code 0x61 = some [true, false] ∧ ¬ dstInRange (held 0 [] 0 0 0xFFFF) 2 := by decide +kernel

theorem witness_WorkedTrace : ∃ h : Hist, h = count [0x61, 0x61, 0x62, 0x62, 0x62, 0x63, 0x63] ∧
    ∃ t, build { Config.standard with symOrder := .signed, internalKey := 255 } h = some t :=
  ⟨_, rfl, v1Tree, by decide +kernel⟩

theorem witness_CodeIsPrefixFree : build .standard v1Hist = some v1Tree ∧
    codeAt (codes v1Tree.arena v1Tree.root) 0x61 = some [true, false] ∧
    codeAt (codes v1Tree.arena v1Tree.root) 0x63 = some [true, true] ∧
    build .standard (count [0x61, 0x61, 0x61, 0x61]) = some v2Tree ∧ (leafSyms v2Tree.arena).length = 1 ∧
    codeAt (codes v2Tree.arena v2Tree.root) 0x61 = some [false] :=
  ⟨v1_build, by decide +kernel, by decide +kernel, v2_build, by decide, by decide +kernel⟩

theorem witness_KraftEquality : build .standard v1Hist = some v1Tree ∧ 2 ≤ (leafSyms v1Tree.arena).length ∧
    build .standard (count [0x61, 0x61, 0x61, 0x61]) = some v2Tree ∧ (leafSyms v2Tree.arena).length = 1 ∧
    0x61 ∈ leafSyms v2Tree.arena := ⟨v1_build, by decide, v2_build, by decide, by decide⟩

/-- V1's longest codeword has n − 1 = 2 bits. -/
theorem witness_CodewordLengths : build .standard v1Hist = some v1Tree ∧ 2 ≤ (leafSyms v1Tree.arena).length ∧
    0x63 ∈ leafSyms v1Tree.arena ∧ codeAt (codes v1Tree.arena v1Tree.root) 0x63 = some [true, true] ∧
    total v1Hist < 2 ^ 32 := ⟨v1_build, by decide, by decide, by decide +kernel, by decide +kernel⟩

theorem witness_EncodingConcatenatesCodewords : aabbbcc.length < 2 ^ 32 ∧ aabbbcc ≠ [] ∧
    ([[true, false], [true, false], [false], [false], [false], [true, true], [true, true]] : List Codeword).map some =
      aabbbcc.map (codeAt v1Code) := ⟨by decide, by decide, by decide +kernel⟩

/-- V40 (no error), V76 (DST_RANGE) and V78 (OVERLAP); and an input that ends at the last byte of the buffer. -/
theorem witness_EncodedLengthIsWeightedSum :
    ((fresh 0 aabbbcc 0 7 0x100).cfg.wf = true ∧ (fresh 0 aabbbcc 0 7 0x100).len ≠ 0 ∧
      srcInRange (fresh 0 aabbbcc 0 7 0x100) ∧ nextIs (exec .encode (fresh 0 aabbbcc 0 7 0x100)) (ends 0 11) = true) ∧
    (srcInRange (fresh 0 aabbbcc 0 7 0xFFF8) ∧
      nextIs (exec .encode (fresh 0 aabbbcc 0 7 0xFFF8)) (ends 3 11) = true) ∧
    (srcInRange (fresh 0 aabbbcc 0 7 5) ∧ nextIs (exec .encode (fresh 0 aabbbcc 0 7 5)) (ends 4 11) = true) ∧
    srcInRange (fresh 0xFFF9 aabbbcc 0xFFF9 7 0) := by decide +kernel

/-- V73; V83; V76 and V77 at the end of the buffer; V78, V79 and V80 at the edges of the input. -/
theorem witness_EncodeResult : (fresh 0 [] 0xFFFFFFFF 0 0xFFFFFFFF).len = 0 ∧
    ¬ srcInRange (fresh 0 [] 0xFFFF 2 0xFFFFFFFF) ∧
    enc aabbbcc v1Code = v1Bits ∧ inputText (fresh 0 aabbbcc 0 7 0) = aabbbcc ∧ srcInRange (fresh 0 aabbbcc 0 7 0) ∧
    ¬ dstInRange (fresh 0 aabbbcc 0 7 0xFFF8) 11 ∧
    (dstInRange (fresh 0 aabbbcc 0 7 0xFFF5) 11 ∧ ¬ overlap (fresh 0 aabbbcc 0 7 0xFFF5) 11) ∧
    (dstInRange (fresh 0 aabbbcc 0 7 5) 11 ∧ overlap (fresh 0 aabbbcc 0 7 5) 11) ∧
    ¬ overlap (fresh 0 aabbbcc 0 7 7) 11 ∧ ¬ overlap (fresh 0x20 aabbbcc 0x20 7 0x15) 11 := by decide +kernel

/-- V74; LEN = 0; V75; V84; V86; V85 (an empty output is never out of range); V41. -/
theorem witness_DecodeResult : (fresh 0 [] 0xFFFFFFFF 5 0).tree = none ∧ (held 0 [] 0 0 0).len = 0 ∧
    ((held 0 [] 0 5 0).tree = some v1Tree ∧ (held 0 [] 0 5 0).len ≠ 0) ∧ ¬ srcInRange (held 0 [] 0xFFFFFFFF 5 0x200) ∧
    (srcInRange (held 0x300 (bits [0, 0, 0, 0]) 0x300 4 0xFFFE) ∧
      dec (bits [0, 0, 0, 0]) v1Tree.arena v1Tree.root = [0x62, 0x62, 0x62, 0x62] ∧
      ¬ dstInRange (held 0x300 (bits [0, 0, 0, 0]) 0x300 4 0xFFFE) 4) ∧
    (dstInRange (held 0x100 v1Bits 0x100 11 0x105) 7 ∧ overlap (held 0x100 v1Bits 0x100 11 0x105) 7) ∧
    (dec [0x78, 0x79, 0x7A] v1Tree.arena v1Tree.root = [] ∧ dstInRange (held 0 [] 0x300 3 0xFFFFFFFF) 0 ∧
      ¬ overlap (held 0 [] 0x300 3 0xFFFFFFFF) 0) ∧
    (dstInRange (held 0x100 v1Bits 0x100 11 0x200) 7 ∧ ¬ overlap (held 0x100 v1Bits 0x100 11 0x200) 7) := by
  decide +kernel

theorem witness_DecodeReadsHeldTreeOnly : ∃ t, exec .decode (held 0x100 v1Bits 0x100 11 0x200) = .next t ∧
    t.result = 7 := by
  obtain ⟨t, ht, h⟩ := nextIs_spec (by decide +kernel :
    nextIs (exec .decode (held 0x100 v1Bits 0x100 11 0x200)) (fun t => decide (t.result = 7)) = true)
  exact ⟨t, ht, by simpa using h⟩

theorem witness_DecodingWalksFromRoot : v2Tree.arena[v2Tree.root]? = some (.leaf 4 0x61) ∧
    v1Tree.arena[v1Tree.root]? = some (.internal 7 1 3) ∧ v1Tree.Reaches [true, false] 0x61 :=
  ⟨by decide, by decide, 0, 2, by decide, by decide⟩

theorem witness_TrailingPartialPathDropped : build .standard v1Hist = some v1Tree ∧
    (∀ b, b ∈ aabbbcc → b ∈ leafSyms v1Tree.arena) ∧ v1Tree.Inside [true] ∧ v1Tree.Inside [] :=
  ⟨v1_build, by decide, ⟨3, 4, 0, 2, by decide, by decide⟩, ⟨4, 7, 1, 3, by decide, by decide⟩⟩

theorem witness_RoundTrip : ∃ t, (fresh 0 aabbbcc 0 7 0x100).cfg.wf = true ∧ (fresh 0 aabbbcc 0 7 0x100).len ≠ 0 ∧
    exec .encode (fresh 0 aabbbcc 0 7 0x100) = .next t ∧ t.err = 0 ∧
    ∃ u : State, u = { t with src := 0x100, len := t.result, dst := 0x200 } ∧ u.cfg = Config.standard ∧
      dstInRange u 7 ∧ ¬ overlap u 7 := by
  obtain ⟨t, ht, h⟩ := nextIs_spec (by decide +kernel : nextIs (exec .encode (fresh 0 aabbbcc 0 7 0x100))
    (fun t => decide (t.err = 0 ∧ t.result = 11 ∧ t.cfg = Config.standard)) = true)
  have h := of_decide_eq_true h
  refine ⟨t, by decide, by decide, ht, h.1, _, rfl, h.2.2, ?_, ?_⟩
  · simp [dstInRange, h.2.2, Config.standard]
  · simp [overlap, h.2.1]

/-- V76. -/
theorem witness_ErrorChangesNothingElse : ∃ t, exec .encode (held 0 aabbbcc 0 7 0xFFF8) = .next t ∧ t.err ≠ 0 := by
  obtain ⟨t, ht, h⟩ := nextIs_spec (by decide +kernel :
    nextIs (exec .encode (held 0 aabbbcc 0 7 0xFFF8)) (fun t => decide (t.err ≠ 0)) = true)
  exact ⟨t, ht, by simpa using h⟩

/-- Every command answers a next state, so each premise of the clauses is met; V70, V87, V76, V84 and V86 raise. -/
theorem witness_ErrorCodesOfCommands :
    nextIs (exec .count (held 0 aabbbcc 0xFFFF 2 0)) (ends 2 0) = true ∧
    nextIs (exec (.rdcode 0x61) (held 0 [] 0 0 0xFFFF)) (ends 3 2) = true ∧
    nextIs (exec .encode (held 0 aabbbcc 0xFFFF 2 0)) (ends 2 0) = true ∧
    nextIs (exec .encode (held 0 aabbbcc 0 7 0xFFF8)) (ends 3 11) = true ∧
    nextIs (exec .encode (held 0 aabbbcc 0 7 0)) (ends 4 11) = true ∧
    nextIs (exec .decode (held 0 [] 0xFFFFFFFF 5 0x200)) (ends 2 0) = true ∧
    nextIs (exec .decode (held 0x300 (bits [0, 0, 0, 0]) 0x300 4 0xFFFE)) (ends 3 4) = true ∧
    nextIs (exec .decode (held 0x100 v1Bits 0x100 11 0x105)) (ends 4 7) = true := by decide +kernel

/-- An illegal word waiting; V89; V73 and V4; V76 for ENCODE and V86 for DECODE, in states that meet the invariant. -/
theorem witness_OrderOfChecks :
    ((busyWith 0x00000102).busy = some 0x00000102 ∧ decode 0x00000102 = .illegal .symNonzero) ∧
    codeAt full.code 0x7A = none ∧ (fresh 0 [] 0 0 0).len = 0 ∧ (fresh 0 [] 0 4 0).tree = none ∧
    ((held 0 aabbbcc 0 7 0xFFF8).Inv ∧ (held 0 aabbbcc 0 7 0xFFF8).len ≠ 0 ∧
      ∃ t, exec .encode (held 0 aabbbcc 0 7 0xFFF8) = .next t) ∧
    ((held 0x100 v1Bits 0x100 11 0x105).Inv ∧ (held 0x100 v1Bits 0x100 11 0x105).tree ≠ none ∧
      (held 0x100 v1Bits 0x100 11 0x105).len ≠ 0 ∧ ∃ t, exec .decode (held 0x100 v1Bits 0x100 11 0x105) = .next t) := by
  obtain ⟨t, ht, -⟩ := nextIs_spec (by decide +kernel :
    nextIs (exec .encode (held 0 aabbbcc 0 7 0xFFF8)) (fun _ => true) = true)
  obtain ⟨u, hu, -⟩ := nextIs_spec (by decide +kernel :
    nextIs (exec .decode (held 0x100 v1Bits 0x100 11 0x105)) (fun _ => true) = true)
  exact ⟨by decide, by decide +kernel, by decide, by decide,
    ⟨held_inv _ _ _ _ _ (by decide +kernel) (by decide +kernel), by decide, t, ht⟩,
    ⟨held_inv _ _ _ _ _ (by decide +kernel) (by decide +kernel), by decide, by decide, u, hu⟩⟩

theorem witness_StepRunsDecodedCommand : full.cfg.wf = true ∧ decode 0x00006106 = .instr (.rdcode 0x61) ∧
    ((busyWith 0x00006106).busy = some 0x00006106 ∧ (busyWith 0x00006106).events = []) ∧
    ∃ s : State, s.busy = some 0x00006106 ∧ s.events = [.block] :=
  ⟨by decide, by decide, by decide, { busyWith 0x00006106 with events := [.block] }, rfl, rfl⟩

theorem witness_EveryCommandCompletes : (busyWith 0x00000004).cfg.wf = true ∧ (busyWith 0x00000004).events = [] ∧
    (busyWith 0xFFFFFFFF).cfg.wf = true ∧ (busyWith 0xFFFFFFFF).events = [] := by decide

/-- A dropped CMD write, a dropped LEN write, an ignored RESULT write, a register read and a buffer read. -/
def meddling : List HostAccess :=
  [.regWrite 0x04 4 0x00000001, .regWrite 0x10 4 3, .regWrite 0x18 4 5, .regRead 0x18 4, .bufRead 0]

theorem witness_BusyWindowKeepsCommand : ∃ s t : State, s = { busyWith 0x00000004 with events := meddling.map .host } ∧
    s.busy = some 0x00000004 ∧ Host.Core.run core meddling.length s = .next t ∧ t.drop = true :=
  ⟨_, _, rfl, rfl, rfl, rfl⟩

theorem witness_CommandIsOneEvent : full.cfg.wf = true ∧ full.busy = none ∧
    programEvents [.wr .src 0, .wr .len 7, .wr .dst 0x100, .cmd .encode, .wait 2] =
      [.host (.regWrite 0x0C 4 0), .host (.regWrite 0x10 4 7), .host (.regWrite 0x14 4 0x100),
       .host (.regWrite 0x04 4 4), .host (.regRead 0x08 4), .host (.regRead 0x08 4), .block,
       .host (.regRead 0x08 4)] := by decide

theorem witness_RacingWriteBothOutcomes : full.cfg.wf = true ∧ full.busy = none := by decide

theorem witness_CmdWriteAcceptedWhenIdle : full.busy = none ∧ (busyWith 4).busy ≠ none := by decide

theorem witness_WindowAccessRules : ((4 : Nat) ≠ 4 ∨ (0x0D : Byte).toNat % 4 ≠ 0) ∧ 0x2C ≤ (0x2C : Byte).toNat ∧
    0x2C ≤ (0xFC : Byte).toNat ∧ (1 : Nat) ≠ 4 ∧ (0x28 : Byte) ∈ ([0x00, 0x08, 0x18, 0x1C, 0x20, 0x24, 0x28] : List Byte) ∧
    (busyWith 4).busy ≠ none ∧ (0x14 : Byte) ∈ ([0x04, 0x0C, 0x10, 0x14] : List Byte) := by decide

theorem witness_OperandRegisters : full.busy = none ∧ ∃ t, exec .decode full = .next t := by
  obtain ⟨t, ht, -⟩ := nextIs_spec (by decide +kernel : nextIs (exec .decode full) (fun _ => true) = true)
  exact ⟨by decide, t, ht⟩

/-- A dropped write sets DROP; an accepted CMD write clears it; so does power-on reset. -/
theorem witness_DropSetAndCleared :
    (∃ s t : State, step s = .next t ∧ s.busy ≠ none ∧ s.drop = false ∧ t.drop = true ∧
      s.events = [.host (.regWrite 0x14 4 0)]) ∧
    (∃ s t : State, step s = .next t ∧ s.busy = none ∧ s.drop = true ∧ t.drop = false ∧
      s.events = [.host (.regWrite 0x04 4 0)]) ∧
    (∃ s t : State, step s = .next t ∧ s.drop = true ∧ t.drop = false ∧ s.events = [.powerOn]) :=
  ⟨⟨{ busyWith 4 with events := [.host (.regWrite 0x14 4 0)] }, _, rfl, by decide, rfl, rfl, rfl⟩,
    ⟨{ full with drop := true, events := [.host (.regWrite 0x04 4 0)] }, _, rfl, rfl, rfl, rfl, rfl⟩,
    ⟨{ full with drop := true, events := [.powerOn] }, _, rfl, rfl, rfl, rfl⟩⟩

theorem witness_StatusFields : full.busy = none ∧ full.tree ≠ none := by decide

theorem witness_DerivedRegisters : full.Inv ∧ full.busy = none ∧ full.tree = some v1Tree ∧
    State.reset.tree = none := ⟨full_inv, rfl, rfl, rfl⟩

theorem witness_ReadsWhileBusy : (busyWith 4).busy ≠ none := by decide

theorem witness_HostBufferAccess : full.busy = none ∧ 0xFFFF < full.cfg.memBytes ∧ full.cfg.memBytes ≤ 0x10000 := by
  decide

theorem witness_HostBufferAccessWhileBusy : (busyWith 4).busy ≠ none ∧ 0xFFFF < (busyWith 4).cfg.memBytes := by decide

theorem witness_BusMapReachesBothSpaces : Platform.wf ⟨0x100, 0x200⟩ Config.standard = true ∧
    0xFFFF < Config.standard.memBytes := by decide

/-- Parameters other than the defaults. -/
theorem witness_PowerOnValues : ∃ r : State, r = { State.reset with cfg := ⟨1, .signed, 255⟩ } ∧
    r.cfg ≠ State.reset.cfg := ⟨_, rfl, by decide⟩

theorem witness_PowerOnAbandonsCommand : ∃ s : State, s.cfg.wf = true ∧ s.busy = some 4 ∧ s.events = [.powerOn] :=
  ⟨{ busyWith 4 with events := [.powerOn] }, by decide, rfl, rfl⟩

/-- A step of each kind: the block's turn on COUNT, on BUILD and on an ENCODE, and a power-on reset. -/
theorem witness_HistogramWriters : (∃ t, step (busyWith 0x00000002) = .next t) ∧
    (∃ t, step { busyWith 0x00000004 with hist := noCounts } = .next t ∧ t.hist.toList = v1Hist.toList ∧ t.err = 0) ∧
    ∃ t, step { full with events := [.powerOn] } = .next t := by
  obtain ⟨t, ht, -⟩ := nextIs_spec (by decide +kernel : nextIs (step (busyWith 0x00000002)) (fun _ => true) = true)
  obtain ⟨u, hu, h⟩ := nextIs_spec (by decide +kernel :
    nextIs (step { busyWith 0x00000004 with hist := noCounts }) (fun t => decide (t.hist.toList = v1Hist.toList ∧ t.err = 0)) = true)
  exact ⟨⟨t, ht⟩, ⟨u, hu, (of_decide_eq_true h).1, (of_decide_eq_true h).2⟩, _, rfl⟩

theorem witness_TreeReplacedAsWhole : (∃ t, step { busyWith 0x00000003 with tree := none, code := noCodes } = .next t ∧
      t.tree = some v1Tree) ∧ ∃ t, step (busyWith 0x00000001) = .next t ∧ t.tree = none := by
  obtain ⟨u, hu, h⟩ := nextIs_spec (by decide +kernel :
    nextIs (step { busyWith 0x00000003 with tree := none, code := noCodes })
      (fun t => decide (t.tree = some v1Tree)) = true)
  exact ⟨⟨u, hu, of_decide_eq_true h⟩, _, rfl, rfl⟩

/-- V77, whose output ends at the last byte of the buffer. -/
theorem witness_CommandWritesOnlyOutputRegion : ∃ t, (held 0 aabbbcc 0 7 0xFFF5).cfg.wf = true ∧
    exec .encode (held 0 aabbbcc 0 7 0xFFF5) = .next t ∧ t.result = 11 ∧
    (0xFFF4 < (held 0 aabbbcc 0 7 0xFFF5).dst.toNat) := by
  obtain ⟨t, ht, h⟩ := nextIs_spec (by decide +kernel :
    nextIs (exec .encode (held 0 aabbbcc 0 7 0xFFF5)) (fun t => decide (t.result = 11)) = true)
  exact ⟨t, by decide, ht, of_decide_eq_true h, by decide⟩

/-- Two buffers that differ at 0x300 only, and agree on the input. -/
theorem witness_CommandReadsOnlyInputRegion : ∃ (s' t t' : State),
    s' = { full with mem := Memory.write full.mem 0x300 0xAA, powerOns := 1 } ∧
    (∀ a, full.src.toNat ≤ a → a < full.src.toNat + full.len.toNat → full.readByte a = s'.readByte a) ∧
    exec .encode full = .next t ∧ exec .encode s' = .next t' := by
  obtain ⟨t, ht, -⟩ := nextIs_spec (by decide +kernel : nextIs (exec .encode full) (fun _ => true) = true)
  obtain ⟨u, hu, -⟩ := nextIs_spec (by decide +kernel :
    nextIs (exec .encode { full with mem := Memory.write full.mem 0x300 0xAA, powerOns := 1 }) (fun _ => true) = true)
  refine ⟨_, t, u, rfl, ?_, ht, hu⟩
  intro a _ h
  have h : a < 7 := h
  interval_cases a <;> decide +kernel

/-- The smallest and the largest buffer. -/
theorem witness_ResetMeetsInvariant : Config.wf ⟨1, .signed, -128⟩ = true ∧
    Config.wf ⟨2 ^ 24, .unsigned, 255⟩ = true := by decide

theorem witness_StepKeepsInvariant : full.Inv ∧ ∃ t, step full = .next t := ⟨full_inv, _, rfl⟩

end Sys2Proof.Tests
end

/-! PROOFS. `build`: the seeding order, the merge loop, and the tree invariant of a built tree (10_state.md R39). -/

namespace Sys2Proof.Machine

/-! ### The order of seeding (41_tree_builder.md R113) -/

/-- The 256 bytes in strictly ascending `symkey` order (R113). -/
def bytesInOrder : SymOrder → List Byte
  | .unsigned => allBytes
  | .signed => allBytes.drop 128 ++ allBytes.take 128

/-- `S` (R116): the bytes whose counter is not zero, in `symkey` order. -/
def presentBytes (o : SymOrder) (h : Hist) : List Byte :=
  (bytesInOrder o).filter fun b => decide (histAt h b ≠ 0)

theorem bytesInOrder_perm (o : SymOrder) : (bytesInOrder o).Perm allBytes := by
  cases o with
  | unsigned => exact .refl _
  | signed => simpa [bytesInOrder] using
      (List.perm_append_comm (l₁ := allBytes.drop 128) (l₂ := allBytes.take 128))

theorem allBytes_zip_hist (h : Hist) : allBytes.zip h.toList = allBytes.map fun b => (b, histAt h b) := by
  rw [hist_toList]
  simpa using List.zip_map' (f := id) (g := histAt h) (l := allBytes)

theorem countersInOrder_eq (o : SymOrder) (h : Hist) :
    countersInOrder o h = (bytesInOrder o).map fun b => (b, histAt h b) := by
  cases o <;> simp [countersInOrder, bytesInOrder, allBytes_zip_hist]

theorem leavesOf_eq (o : SymOrder) (h : Hist) :
    leavesOf o h = (presentBytes o h).map fun b => .leaf (histAt h b) b := by
  simp [leavesOf, keysInOrder, countersInOrder_eq, presentBytes, List.filter_map, Function.comp_def]

/-- A signed byte below 0x80 keeps its value and one from 0x80 on loses 256 (R111). -/
theorem symkey_signed_ofNat {i : Nat} (h : i < 256) :
    symkey .signed (BitVec.ofNat 8 i) = if i < 128 then (i : Int) else i - 256 := by
  rw [symkey, BitVec.toInt_eq_toNat_cond, BitVec.toNat_ofNat, Nat.mod_eq_of_lt h]
  split <;> split <;> omega

/-- Signed bytes ascend from 0x80 round to 0x7F. -/
theorem symkey_signed_lt {i j : Nat} (hi : i < 256) (hj : j < 256) (h : (i + 128) % 256 < (j + 128) % 256) :
    symkey .signed (BitVec.ofNat 8 i) < symkey .signed (BitVec.ofNat 8 j) := by
  rw [symkey_signed_ofNat hi, symkey_signed_ofNat hj]
  split <;> split <;> omega

theorem bytesInOrder_ascending (o : SymOrder) :
    (bytesInOrder o).Pairwise fun a b => symkey o a < symkey o b := by
  cases o with
  | unsigned =>
    refine List.pairwise_map.mpr (List.pairwise_lt_range.imp_of_mem fun ha hb hab => ?_)
    rw [List.mem_range] at ha hb
    simp only [symkey, BitVec.toNat_ofNat]
    omega
  | signed =>
    have halves : bytesInOrder .signed = (List.range' 128 128 ++ List.range' 0 128).map (BitVec.ofNat 8) := by
      simp [bytesInOrder, allBytes, List.range_eq_range', ← List.map_drop, ← List.map_take]
    rw [halves, List.pairwise_map, List.pairwise_append]
    simp only [List.mem_range'_1]
    refine ⟨(List.pairwise_lt_range' 1).imp_of_mem fun hi hj hij => ?_,
      (List.pairwise_lt_range' 1).imp_of_mem fun hi hj hij => ?_, fun i hi j hj => ?_⟩
    · rw [List.mem_range'_1] at hi hj
      exact symkey_signed_lt (by omega) (by omega) (by omega)
    · rw [List.mem_range'_1] at hi hj
      exact symkey_signed_lt (by omega) (by omega) (by omega)
    · exact symkey_signed_lt (by omega) (by omega) (by omega)

theorem presentBytes_ascending (o : SymOrder) (h : Hist) :
    (presentBytes o h).Pairwise fun a b => symkey o a < symkey o b :=
  (bytesInOrder_ascending o).filter _

theorem mem_presentBytes {o : SymOrder} {h : Hist} {b : Byte} : b ∈ presentBytes o h ↔ histAt h b ≠ 0 := by
  simp [presentBytes, (bytesInOrder_perm o).mem_iff, mem_allBytes]

theorem presentBytes_length (o : SymOrder) (h : Hist) :
    (presentBytes o h).length = (allBytes.filter fun b => decide (histAt h b ≠ 0)).length :=
  ((bytesInOrder_perm o).filter _).length_eq

theorem presentBytes_length_le (o : SymOrder) (h : Hist) : (presentBytes o h).length ≤ 256 := by
  rw [presentBytes_length, ← allBytes_length]
  exact List.length_filter_le _ _

theorem total_eq_sum (h : Hist) : total h = (allBytes.map fun b => (histAt h b).toNat).sum := by
  rw [total, hist_toList, List.map_map]
  rfl

/-- The bytes that do not occur add nothing to a sum of counters. -/
theorem sum_filter_present (h : Hist) (bs : List Byte) :
    ((bs.filter fun b => decide (histAt h b ≠ 0)).map fun b => (histAt h b).toNat).sum =
      (bs.map fun b => (histAt h b).toNat).sum := by
  induction bs with
  | nil => rfl
  | cons b bs ih =>
    rw [List.filter_cons]
    split
    · rw [List.map_cons, List.sum_cons, ih, List.map_cons, List.sum_cons]
    · next hb =>
      have hb : histAt h b = 0 := by simpa using hb
      rw [ih, List.map_cons, List.sum_cons, hb]
      exact (Nat.zero_add _).symm

theorem presentBytes_sum (o : SymOrder) (h : Hist) :
    ((presentBytes o h).map fun b => (histAt h b).toNat).sum = total h := by
  rw [presentBytes, sum_filter_present, total_eq_sum]
  exact ((bytesInOrder_perm o).map _).sum_eq

/-! ### Arenas -/

theorem leafSyms_append (l m : List Node) : leafSyms (l ++ m) = leafSyms l ++ leafSyms m := List.filterMap_append

theorem childRefs_append (l m : List Node) : childRefs (l ++ m) = childRefs l ++ childRefs m := List.flatMap_append

@[simp] theorem leafSyms_leaves (w : Byte → Word) (bs : List Byte) :
    leafSyms (bs.map fun b => .leaf (w b) b) = bs := by
  simp [leafSyms, List.filterMap_map]

@[simp] theorem childRefs_leaves (w : Byte → Word) (bs : List Byte) :
    childRefs (bs.map fun b => .leaf (w b) b) = [] := by
  simp [childRefs, List.flatMap_map]

theorem internalAt_iff {arena : List Node} {k : Nat} :
    internalAt arena k = true ↔ ∃ w l r, arena[k]? = some (.internal w l r) ∧ l < k ∧ r < k ∧ l ≠ r ∧
      w.toNat = (nodeWeight arena l).toNat + (nodeWeight arena r).toNat := by
  unfold internalAt
  split
  · next w l r hk => simp [hk, and_assoc]
  · next hk => simpa using fun w l r h => absurd h (hk w l r)

/-- Appending a node changes no internal node that was there (R115). -/
theorem internalAt_append {arena : List Node} {k : Nat} (n : Node) (h : internalAt arena k = true) :
    internalAt (arena ++ [n]) k = true := by
  obtain ⟨w, l, r, hk, hl, hr, hlr, hw⟩ := internalAt_iff.mp h
  have hlen : k < arena.length := (List.getElem?_eq_some_iff.mp hk).1
  refine internalAt_iff.mpr ⟨w, l, r, by rw [List.getElem?_append_left hlen, hk], hl, hr, hlr, ?_⟩
  rw [nodeWeight_append _ _ _ (hl.trans hlen), nodeWeight_append _ _ _ (hr.trans hlen), hw]

/-! ### The merge loop (41_tree_builder.md R115) -/

/-- What every merge keeps holds at the end of the loop. -/
theorem mergeLoop_induct (c : Config) {P : List Node → List Nat → Prop}
    (merge : ∀ arena q a b, P arena q → a ∈ q → b ∈ q.erase a →
      extractLeast c arena q = some (a, q.erase a) →
      extractLeast c arena (q.erase a) = some (b, (q.erase a).erase b) →
      P (arena ++ [.internal (nodeWeight arena a + nodeWeight arena b) a b])
        ((q.erase a).erase b ++ [arena.length]))
    (n : Nat) {arena : List Node} {q : List Nat} (start : P arena q) :
    P (mergeLoop c n arena q).1 (mergeLoop c n arena q).2 := by
  induction n generalizing arena q with
  | zero => exact start
  | succ n ih =>
    obtain ⟨-, hend⟩ | ⟨a, b, ha, hb, hleast, hnext, hmerge⟩ := mergeLoop_succ c n arena q
    · rw [hend]; exact start
    · rw [hmerge]; exact ih (merge arena q a b start ha hb hleast hnext)

/-- A merge takes two nodes out of the collection and puts one in. -/
theorem merged_length {q : List Nat} {a b : Nat} (k : Nat) (ha : a ∈ q) (hb : b ∈ q.erase a) :
    ((q.erase a).erase b ++ [k]).length + 1 = q.length := by
  have := List.length_pos_of_mem hb
  rw [List.length_erase_of_mem ha] at this
  rw [List.length_append, List.length_erase_of_mem hb, List.length_erase_of_mem ha, List.length_singleton]
  omega

/-- The loop's passes suffice: at its end fewer than two nodes remain. -/
theorem mergeLoop_remaining (c : Config) (n : Nat) (arena : List Node) (q : List Nat) (h : q.length ≤ n + 1) :
    (mergeLoop c n arena q).2.length < 2 := by
  induction n generalizing arena q with
  | zero => exact Nat.lt_succ_of_le h
  | succ n ih =>
    obtain ⟨hlt, hend⟩ | ⟨a, b, ha, hb, -, -, hmerge⟩ := mergeLoop_succ c n arena q
    · rw [hend]; exact hlt
    · rw [hmerge]
      refine ih _ _ ?_
      have := merged_length arena.length ha hb
      omega

/-- What the merge loop keeps of the arena and the collection `q`, which began with `leaves` and their `weight`. -/
structure MergeInv (leaves : List Node) (weight : Nat) (arena : List Node) (q : List Nat) : Prop where
  /-- The arena begins with the leaves. -/
  leavesFirst : leaves <+: arena
  /-- Every later node is internal. -/
  syms        : leafSyms arena = leafSyms leaves
  internals   : ∀ k, leaves.length ≤ k → k < arena.length → internalAt arena k = true
  /-- A merge adds a node and takes one out of the collection. -/
  size        : arena.length + q.length = 2 * leaves.length
  /-- Every node has one parent or stands once in the collection. -/
  refs        : (childRefs arena ++ q).Perm (List.range arena.length)
  /-- The newest node has no parent yet. -/
  newest      : arena.length - 1 ∈ q
  /-- No sum overflows, so merging keeps the total weight. -/
  weights     : (q.map fun i => (nodeWeight arena i).toNat).sum = weight

section
variable {leaves arena : List Node} {weight : Nat} {q : List Nat}

theorem MergeInv.lt_length (h : MergeInv leaves weight arena q) {i : Nat} (hi : i ∈ q) : i < arena.length :=
  List.mem_range.mp (h.refs.mem_iff.mp (List.mem_append_right _ hi))

theorem MergeInv.nodup (h : MergeInv leaves weight arena q) : q.Nodup :=
  (List.nodup_append.mp (h.refs.nodup_iff.mpr List.nodup_range)).2.1

/-- The two nodes a merge takes are different nodes, and their weights are part of the total. -/
theorem MergeInv.weight_split (h : MergeInv leaves weight arena q) {a b : Nat} (ha : a ∈ q) (hb : b ∈ q.erase a) :
    (nodeWeight arena a).toNat + ((nodeWeight arena b).toNat +
      (((q.erase a).erase b).map fun i => (nodeWeight arena i).toNat).sum) = weight := by
  rw [← h.weights, ((List.perm_cons_erase ha).map _).sum_eq, List.map_cons, List.sum_cons,
    ((List.perm_cons_erase hb).map _).sum_eq, List.map_cons, List.sum_cons]

theorem MergeInv.merge (hw : weight < 2 ^ 32) (h : MergeInv leaves weight arena q) {a b : Nat} (ha : a ∈ q)
    (hb : b ∈ q.erase a) : MergeInv leaves weight
      (arena ++ [.internal (nodeWeight arena a + nodeWeight arena b) a b])
      ((q.erase a).erase b ++ [arena.length]) := by
  have ha' := h.lt_length ha
  have hb' := h.lt_length (List.mem_of_mem_erase hb)
  have split := h.weight_split ha hb
  have sum : (nodeWeight arena a + nodeWeight arena b).toNat =
      (nodeWeight arena a).toNat + (nodeWeight arena b).toNat := BitVec.toNat_add_of_lt (by omega)
  have pairs : q.Perm (a :: b :: (q.erase a).erase b) :=
    (List.perm_cons_erase ha).trans ((List.perm_cons_erase hb).cons a)
  constructor
  case leavesFirst => exact h.leavesFirst.trans (List.prefix_append _ _)
  case syms => rw [leafSyms_append, h.syms]; exact List.append_nil _
  case internals =>
    intro k hk hlt
    rw [List.length_append, List.length_singleton] at hlt
    obtain hold | rfl := Nat.lt_succ_iff_lt_or_eq.mp hlt
    · exact internalAt_append _ (h.internals k hk hold)
    · refine internalAt_iff.mpr ⟨_, a, b, List.getElem?_concat_length, ha', hb', ?_, ?_⟩
      · rintro rfl
        exact h.nodup.not_mem_erase hb
      · rw [nodeWeight_append _ _ _ ha', nodeWeight_append _ _ _ hb', sum]
  case size =>
    have := merged_length arena.length ha hb
    have := h.size
    rw [List.length_append, List.length_singleton]
    omega
  case refs =>
    have tail : (([a, b] : List Nat) ++ (q.erase a).erase b).Perm q := pairs.symm
    rw [childRefs_append, List.length_append, List.length_singleton, List.range_succ]
    show (childRefs arena ++ [a, b] ++ ((q.erase a).erase b ++ [arena.length])).Perm _
    rw [← List.append_assoc, List.append_assoc (childRefs arena)]
    exact ((tail.append_left _).trans h.refs).append_right _
  case newest => simp
  case weights =>
    have kept : (((q.erase a).erase b).map fun i => (nodeWeight
        (arena ++ [.internal (nodeWeight arena a + nodeWeight arena b) a b]) i).toNat) =
        ((q.erase a).erase b).map fun i => (nodeWeight arena i).toNat :=
      List.map_congr_left fun i hi => by
        rw [nodeWeight_append _ _ _ (h.lt_length (List.mem_of_mem_erase (List.mem_of_mem_erase hi)))]
    have new : nodeWeight (arena ++ [.internal (nodeWeight arena a + nodeWeight arena b) a b]) arena.length =
        nodeWeight arena a + nodeWeight arena b := by
      simp [nodeWeight, Node.weight]
    rw [List.map_append, List.sum_append, kept, List.map_singleton, List.sum_singleton, new, sum]
    omega

end

/-- The loop starts with every leaf in the collection (R113). -/
theorem MergeInv.init (w : Byte → Word) {bs : List Byte} (hne : bs ≠ []) :
    MergeInv (bs.map fun b => .leaf (w b) b) (bs.map fun b => (w b).toNat).sum
      (bs.map fun b => .leaf (w b) b) (List.range bs.length) where
  leavesFirst := List.prefix_refl _
  syms := rfl
  internals k hk hlt := absurd hlt (Nat.not_lt.mpr hk)
  size := by simp [Nat.two_mul]
  refs := by simp
  newest := by simp [List.length_pos_iff.mpr hne]
  weights := by
    congr 1
    refine List.ext_getElem (by simp) fun i h1 h2 => ?_
    have hi : i < bs.length := by simpa using h2
    simp [nodeWeight, Node.weight, hi]

/-- At the end of the loop the arena is a tree as R39 says, with a leaf for each of `bs`. -/
theorem MergeInv.wf {o : SymOrder} {w : Byte → Word} {bs : List Byte} {weight : Nat} {arena : List Node} {q : List Nat}
    (h : MergeInv (bs.map fun b => .leaf (w b) b) weight arena q) (hq : q.length < 2) (hmost : bs.length ≤ 256)
    (hasc : bs.Pairwise fun a b => symkey o a < symkey o b) :
    HeldTree.Wf o { arena := arena, root := q.headD 0 } bs.length := by
  have hroot : q = [arena.length - 1] := by
    have hone : q.length = 1 := by
      have := List.length_pos_of_mem h.newest
      omega
    obtain ⟨r, rfl⟩ := List.length_eq_one_iff.mp hone
    exact congrArg (fun r => [r]) (List.mem_singleton.mp h.newest).symm
  subst hroot
  have hsize := h.size
  have hsyms := h.syms
  have hint := h.internals
  have hpos := h.lt_length h.newest
  rw [List.length_map] at hint hsize
  rw [leafSyms_leaves] at hsyms
  rw [List.length_singleton] at hsize
  constructor
  case atLeast => omega
  case atMost => exact hmost
  case leaves => rw [hsyms]
  case size => show arena.length = _; omega
  case leafFirst =>
    intro i hi
    have : arena[i]? = some (.leaf (w bs[i]) bs[i]) := by
      rw [List.prefix_iff_getElem?.mp h.leavesFirst i (by simpa using hi), List.getElem_map]
    simp [leafAt, this]
  case ascending => rw [hsyms]; exact hasc
  case internals => exact hint
  case rootIndex => show arena.length - 1 = _; omega
  case oneParent =>
    intro i hi hne
    have hcount := h.refs.count_eq i
    rw [List.count_append, List.count_singleton, if_neg (by simpa using fun h => hne h.symm),
      List.count_eq_one_of_mem List.nodup_range (List.mem_range.mpr hi)] at hcount
    exact hcount

/-! ### A built tree -/

/-- A tree that `build` gives is where the merge loop ends, started with every leaf in the collection (R116). -/
theorem build_some {c : Config} {h : Hist} {t : HeldTree} (hb : build c h = some t) :
    presentBytes c.symOrder h ≠ [] ∧ ∃ arena q, t = { arena := arena, root := q.headD 0 } ∧
      mergeLoop c (presentBytes c.symOrder h).length (leavesOf c.symOrder h)
        (List.range (presentBytes c.symOrder h).length) = (arena, q) := by
  have hlen : (leavesOf c.symOrder h).length = (presentBytes c.symOrder h).length := by
    rw [leavesOf_eq, List.length_map]
  unfold build at hb
  split at hb
  · cases hb
  · next n ns hl =>
    cases hb
    rw [← List.length_pos_iff, ← hlen, hl]
    exact ⟨Nat.succ_pos _, _, _, rfl, rfl⟩

theorem build_eq_none {c : Config} {h : Hist} : build c h = none ↔ ∀ b, histAt h b = 0 := by
  have hnil : build c h = none ↔ presentBytes c.symOrder h = [] := by
    rw [← List.map_eq_nil_iff (f := fun b => Node.leaf (histAt h b) b), ← leavesOf_eq]
    unfold build
    split <;> simp [*]
  simp [hnil, List.eq_nil_iff_forall_not_mem, mem_presentBytes]

theorem build_wf {c : Config} {h : Hist} {t : HeldTree} (hsum : total h < 2 ^ 32) (hb : build c h = some t) :
    HeldTree.Wf c.symOrder t (presentBytes c.symOrder h).length := by
  obtain ⟨hne, arena, q, rfl, hloop⟩ := build_some hb
  have start := MergeInv.init (histAt h) hne
  rw [presentBytes_sum] at start
  have finish := mergeLoop_induct c (fun _ _ _ _ h ha hb _ _ => h.merge hsum ha hb)
    (presentBytes c.symOrder h).length start
  have remaining := mergeLoop_remaining c (presentBytes c.symOrder h).length (leavesOf c.symOrder h)
    (List.range (presentBytes c.symOrder h).length) (by simp)
  rw [← leavesOf_eq, hloop, leavesOf_eq] at finish
  rw [hloop] at remaining
  exact finish.wf remaining (presentBytes_length_le _ _) (presentBytes_ascending _ _)

/-- Settles O17: the merge loop keeps `MergeInv`, which at its end is R39. -/
theorem buildMeetsTreeInvariant : Obligations.BuildMeetsTreeInvariant := by
  intro c h t hsum hb
  rw [← presentBytes_length c.symOrder h]
  exact build_wf hsum hb

end Sys2Proof.Machine

/-! PROOFS. What a host access, a command and a step can do, each said once, and what the registers read. -/

namespace Sys2Proof.Machine

/-! ### The register window (10_state.md R22, R23) -/

theorem regAt_eq_some {off : Byte} {r : Reg} (h : regAt off = some r) : off = r.offset := by
  unfold regAt at h
  split at h <;> cases h <;> exact BitVec.eq_of_toNat_eq ‹_›

/-- An access reaches a register at the register's own offset and with 4 bytes only. -/
theorem accessedReg_eq_some {off : Byte} {size : Nat} {r : Reg} :
    accessedReg off size = some r ↔ size = 4 ∧ off = r.offset := by
  constructor
  · intro h
    unfold accessedReg at h
    split at h
    · next hacc => exact ⟨hacc.1, regAt_eq_some h⟩
    · cases h
  · rintro ⟨rfl, rfl⟩
    exact accessedReg_offset r

/-- Every register stands at a multiple of 4 below 0x2C (R22). -/
theorem offset_aligned (r : Reg) : r.offset.toNat % 4 = 0 ∧ r.offset.toNat < 0x2C := by
  cases r <;> decide

theorem accessedReg_eq_none {off : Byte} {size : Nat} (h : size ≠ 4 ∨ off.toNat % 4 ≠ 0 ∨ 0x2C ≤ off.toNat) :
    accessedReg off size = none := by
  rw [Option.eq_none_iff_forall_ne_some]
  intro r hr
  obtain ⟨rfl, rfl⟩ := accessedReg_eq_some.mp hr
  have := offset_aligned r
  omega

/-- The registers a write can change stand at these offsets. -/
theorem offset_mem_writable (r : Reg) :
    r.offset ∈ ([0x04, 0x0C, 0x10, 0x14] : List Byte) ↔ r = .cmd ∨ r = .src ∨ r = .len ∨ r = .dst := by
  cases r <;> decide

theorem readWindow_none {off : Byte} {size : Nat} (s : State) (h : accessedReg off size = none) :
    readWindow s off size = 0 := by
  rw [readWindow, h]

theorem writeWindow_none {off : Byte} {size : Nat} (s : State) (v : Word) (h : accessedReg off size = none) :
    writeWindow s off size v = s := by
  rw [writeWindow, h]

/-- A register other than CMD, SRC, LEN and DST ignores a write (R23(c)). -/
theorem writeReg_readOnly (s : State) (v : Word) {r : Reg}
    (h : r.offset ∉ ([0x04, 0x0C, 0x10, 0x14] : List Byte)) : writeReg s v r = s := by
  cases r
  case cmd | src | len | dst => exact absurd (by decide) h
  all_goals rfl

/-- A write anywhere but at CMD, SRC, LEN and DST is ignored (R23(b), (c)). -/
theorem writeWindow_ignored (s : State) (size : Nat) (v : Word) {off : Byte}
    (h : off ∉ ([0x04, 0x0C, 0x10, 0x14] : List Byte)) : writeWindow s off size v = s := by
  cases hr : accessedReg off size with
  | none => exact writeWindow_none s v hr
  | some r =>
    obtain ⟨rfl, rfl⟩ := accessedReg_eq_some.mp hr
    rw [writeWindow_offset, writeReg_readOnly s v h]

/-- A write to CMD, SRC, LEN or DST while busy is dropped (R23(e), R28). -/
theorem writeReg_dropped {s : State} (v : Word) {r : Reg} (hb : s.busy ≠ none)
    (h : r.offset ∈ ([0x04, 0x0C, 0x10, 0x14] : List Byte)) : writeReg s v r = { s with drop := true } := by
  obtain ⟨w, hw⟩ := Option.ne_none_iff_exists'.mp hb
  obtain rfl | rfl | rfl | rfl := (offset_mem_writable r).mp h <;> exact writeUnlessBusy_busy s _ w hw

/-- The offsets of `offset_mem_writable` are offsets of registers. -/
theorem exists_reg_of_writable {off : Byte} (h : off ∈ ([0x04, 0x0C, 0x10, 0x14] : List Byte)) :
    ∃ r : Reg, off = r.offset := by
  simp only [List.mem_cons, List.not_mem_nil, or_false] at h
  obtain rfl | rfl | rfl | rfl := h
  exacts [⟨.cmd, rfl⟩, ⟨.src, rfl⟩, ⟨.len, rfl⟩, ⟨.dst, rfl⟩]

theorem writeWindow_dropped {s : State} (v : Word) {off : Byte} (hb : s.busy ≠ none)
    (h : off ∈ ([0x04, 0x0C, 0x10, 0x14] : List Byte)) : writeWindow s off 4 v = { s with drop := true } := by
  obtain ⟨r, rfl⟩ := exists_reg_of_writable h
  rw [writeWindow_offset, writeReg_dropped v hb h]

/-- What a write to the window can do: nothing, set DROP, accept a command, or change the operands. -/
theorem writeWindow_cases (s : State) (off : Byte) (size : Nat) (v : Word) :
    writeWindow s off size v = s ∨
    (s.busy ≠ none ∧ size = 4 ∧ off ∈ ([0x04, 0x0C, 0x10, 0x14] : List Byte) ∧
      writeWindow s off size v = { s with drop := true }) ∨
    (s.busy = none ∧ size = 4 ∧ off = 0x04 ∧ writeWindow s off size v = acceptCommand s v) ∨
    (s.busy = none ∧ ∃ a n d, writeWindow s off size v = { s with src := a, len := n, dst := d }) := by
  cases hr : accessedReg off size with
  | none => exact .inl (writeWindow_none s v hr)
  | some r =>
    obtain ⟨rfl, rfl⟩ := accessedReg_eq_some.mp hr
    rw [writeWindow_offset]
    by_cases hw : r.offset ∈ ([0x04, 0x0C, 0x10, 0x14] : List Byte)
    · by_cases hb : s.busy = none
      · refine .inr (.inr ?_)
        obtain rfl | rfl | rfl | rfl := (offset_mem_writable r).mp hw
        · exact .inl ⟨hb, rfl, rfl, writeUnlessBusy_idle s _ hb⟩
        all_goals exact .inr ⟨hb, _, _, _, writeUnlessBusy_idle s _ hb⟩
      · exact .inr (.inl ⟨hb, rfl, hw, writeReg_dropped v hb hw⟩)
    · exact .inl (writeReg_readOnly s v hw)

/-! ### Register reads (R23(d), R29) -/

theorem hostSees_regRead (s : State) (off : Byte) (size : Nat) :
    s.HostSees (.regRead off size) (.word (readWindow s off size)) := ⟨_, rfl, rfl⟩

theorem hostSees_idle {s : State} (h : s.busy = none) (r : Reg) :
    s.HostSees (.regRead r.offset 4) (.word (regValue s r)) :=
  readWindow_idle s r h ▸ hostSees_regRead s r.offset 4

theorem hostSees_busy {s : State} (h : s.busy ≠ none) (r : Reg) :
    s.HostSees (.regRead r.offset 4) (.word (regValueBusy s (Config.freeWord s.draws) r)) := by
  obtain ⟨w, hw⟩ := Option.ne_none_iff_exists'.mp h
  exact readWindow_busy s r w hw ▸ hostSees_regRead s r.offset 4

/-- A register that reads the same whatever the free word reads that value, idle or busy (R29). -/
theorem hostSees_always (s : State) {r : Reg} (h : ∀ free, regValueBusy s free r = regValue s r) :
    s.HostSees (.regRead r.offset 4) (.word (regValue s r)) := by
  by_cases hb : s.busy = none
  · exact hostSees_idle hb r
  · exact h _ ▸ hostSees_busy hb r

/-- What STATUS reads: BUSY and DROP as they are, TREE_VALID and ERR as they are while idle (R26, R29). -/
theorem hostSees_status (s : State) : ∃ valid e,
    s.HostSees (.regRead 0x08 4) (.word (statusWord s.busy.isSome valid e s.drop)) ∧
    (s.busy = none → valid = s.tree.isSome ∧ e = s.err) := by
  cases hb : s.busy with
  | none =>
    have h := hostSees_idle hb .status
    rw [regValue, hb] at h
    exact ⟨_, _, h, fun _ => ⟨rfl, rfl⟩⟩
  | some w => exact ⟨_, _, hostSees_busy (by simp [hb]) .status, nofun⟩

section
variable (busy valid : Bool) (e : BitVec 4) (drop : Bool)

@[simp] theorem statusWord_busy : (statusWord busy valid e drop)[0] = busy := by
  simp only [statusWord, ← BitVec.getLsbD_eq_getElem, BitVec.getLsbD_append]
  simp

@[simp] theorem statusWord_treeValid : (statusWord busy valid e drop)[1] = valid := by
  simp only [statusWord, ← BitVec.getLsbD_eq_getElem, BitVec.getLsbD_append]
  simp

@[simp] theorem statusWord_drop : (statusWord busy valid e drop)[8] = drop := by
  simp only [statusWord, ← BitVec.getLsbD_eq_getElem, BitVec.getLsbD_append]
  simp

@[simp] theorem statusWord_err : (statusWord busy valid e drop).extractLsb' 4 4 = e := by
  rw [statusWord, BitVec.extractLsb'_append_eq_of_le (by decide), BitVec.extractLsb'_append_eq_of_le (by decide),
    BitVec.extractLsb'_append_eq_of_le (by decide), BitVec.extractLsb'_append_eq_of_add_le (by decide)]
  simp

@[simp] theorem statusWord_reserved_low : (statusWord busy valid e drop).extractLsb' 2 2 = 0 := by
  rw [statusWord, BitVec.extractLsb'_append_eq_of_le (by decide), BitVec.extractLsb'_append_eq_of_le (by decide),
    BitVec.extractLsb'_append_eq_of_add_le (by decide)]
  simp

@[simp] theorem statusWord_reserved_high : (statusWord busy valid e drop).extractLsb' 9 23 = 0 := by
  rw [statusWord, BitVec.extractLsb'_append_eq_of_le (by decide), BitVec.extractLsb'_append_eq_of_le (by decide),
    BitVec.extractLsb'_append_eq_of_le (by decide), BitVec.extractLsb'_append_eq_of_le (by decide),
    BitVec.extractLsb'_append_eq_of_le (by decide)]
  simp

end

/-! ### The derived registers (R34, R35) -/

theorem nsym_eq_length (h : Hist) : nsym h = (allBytes.filter fun b => decide (histAt h b ≠ 0)).length := by
  rw [nsym, hist_toList, List.countP_map, List.countP_eq_length_filter]
  rfl

@[simp] theorem nsym_noCounts : nsym noCounts = 0 := by simp [nsym_eq_length]

@[simp] theorem total_noCounts : total noCounts = 0 := by
  rw [total, noCounts, Vector.toList_replicate, List.map_replicate, List.sum_replicate]
  rfl

/-- One more byte adds at most one to the sum of the counters (nothing if its counter wraps). -/
theorem total_bump_le (h : Hist) (b : Byte) : total (bump h b) ≤ total h + 1 := by
  have hb : b.toNat < (h.toList.map BitVec.toNat).length := by simpa using b.isLt
  have before := List.sum_set (h.toList.map BitVec.toNat) b.toNat (h.toList.map BitVec.toNat)[b.toNat]
  have after := List.sum_set (h.toList.map BitVec.toNat) b.toNat (histAt h b + 1).toNat
  have grows : (histAt h b + 1).toNat ≤ (histAt h b).toNat + 1 := by
    rw [BitVec.toNat_add]
    exact Nat.mod_le _ _
  have entry : (h.toList.map BitVec.toNat)[b.toNat] = (histAt h b).toNat := by simp [histAt]
  rw [List.set_getElem_self, if_pos hb, entry] at before
  rw [if_pos hb] at after
  rw [total, total, bump, Vector.toList_set, List.map_set, after, before]
  omega

theorem total_foldl_bump_le (t : Text) (h : Hist) : total (t.foldl bump h) ≤ total h + t.length := by
  induction t generalizing h with
  | nil => exact Nat.le_refl _
  | cons b t ih =>
    have := ih (bump h b)
    have := total_bump_le h b
    rw [List.foldl_cons, List.length_cons]
    omega

theorem total_count_le (t : Text) : total (count t) ≤ t.length := by
  have h := total_foldl_bump_le t noCounts
  rwa [total_noCounts, Nat.zero_add] at h

/-- A text a command can read has no more bytes than the buffer (40_histogram.md R91). -/
theorem total_count_inputText_le {s : State} (h : srcInRange s) :
    total (count (inputText s)) ≤ s.cfg.memBytes := by
  refine (total_count_le _).trans ?_
  rw [inputText_length]
  obtain h | h := h
  · simp [h]
  · omega

/-! ### The completion of a command (60_exceptions.md R193) -/

/-- The ends of a command: it answers a result or an error and keeps the rest of the record, or it also replaces the
histogram, the tree with its code table, or the output region. -/
inductive CompletesAs (i : Instr) (s : State) : State → Prop
  | result (r : Word) : CompletesAs i s (complete s r)
  | error (e : CmdError) (r : Word) : CompletesAs i s (raiseCmdError s e r)
  | cleared (hi : i = .reset) :
      CompletesAs i s (complete { s with hist := noCounts, code := noCodes, tree := none } 0)
  | counted (hi : i = .count) (hs : srcInRange s) (r : Word) :
      CompletesAs i s (complete { s with hist := count (inputText s) } r)
  | built (hi : i = .build) (tr : HeldTree) (hb : build s.cfg s.hist = some tr) (r : Word) :
      CompletesAs i s (complete (holdTree s tr) r)
  | encoded (hi : i = .encode) (hl : s.len ≠ 0) (hs : srcInRange s) (tr : HeldTree)
      (hb : build s.cfg (count (inputText s)) = some tr) (out : Text) (hd : dstInRange s out.length) :
      CompletesAs i s (commitOutput (holdTree { s with hist := count (inputText s) } tr) out)
  | output (out : Text) (hd : dstInRange s out.length) : CompletesAs i s (commitOutput s out)

theorem exec_completesAs {i : Instr} {s t : State} (h : exec i s = .next t) : CompletesAs i s t := by
  cases i with
  | nop => cases h; exact .result _
  | reset => cases h; exact .cleared rfl
  | rdfreq b => cases h; exact .result _
  | count =>
    obtain ⟨hs, rfl⟩ | ⟨-, rfl⟩ := execCount_cases h
    · exact .counted rfl hs _
    · exact .error _ _
  | build =>
    obtain ⟨-, rfl⟩ | ⟨tr, hb, rfl⟩ := execBuild_cases h
    · exact .result _
    · exact .built rfl tr hb _
  | rdcode b =>
    obtain ⟨-, rfl⟩ | ⟨w, -, hd, rfl⟩ | ⟨w, -, -, rfl⟩ := execRdcode_cases h
    · exact .result _
    · exact .output _ (by rwa [chars_length])
    · exact .error _ _
  | encode =>
    obtain ⟨-, rfl⟩ | ⟨-, -, rfl⟩ | ⟨-, -, -, rfl⟩ | ⟨tr, e, -, -, -, -, rfl⟩ | ⟨tr, hl, hs, hb, ho, rfl⟩ :=
      execEncode_cases h
    · exact .result _
    · exact .error _ _
    · exact .result _
    · exact .error _ _
    · exact .encoded rfl hl hs tr hb _ (outputError_none.mp ho).1
  | decode =>
    obtain ⟨-, rfl⟩ | ⟨-, -, -, rfl⟩ | ⟨tr, e, -, -, -, -, rfl⟩ | ⟨tr, -, -, -, ho, rfl⟩ := execDecode_cases h
    · exact .result _
    · exact .error _ _
    · exact .error _ _
    · exact .output _ (outputError_none.mp ho).1

/-- A command writes RESULT, ERR, the histogram, the tree, the code table and the buffer only, and ends idle. -/
theorem exec_frame {i : Instr} {s t : State} (h : exec i s = .next t) :
    t = { s with result := t.result, err := t.err, busy := none, hist := t.hist, tree := t.tree, code := t.code,
                 mem := t.mem } := by
  cases exec_completesAs h <;> rfl

/-- The block's turn does nothing when idle, and else completes the accepted word (R196 (3)). -/
theorem blockTurn_cases {s t : State} (h : blockTurn s = .next t) :
    (s.busy = none ∧ t = s) ∨
    (∃ w i, s.busy = some w ∧ decode w = .instr i ∧ exec i s = .next t) ∨
    (s.busy ≠ none ∧ t = raiseCmdError s .illegal 0) := by
  cases hb : s.busy with
  | none => rw [blockTurn_idle hb] at h; cases h; exact .inl ⟨rfl, rfl⟩
  | some w =>
    cases hd : decode w with
    | instr i => rw [blockTurn_instr hb hd] at h; exact .inr (.inl ⟨w, i, rfl, hd, h⟩)
    | illegal why => rw [blockTurn_illegal hb hd] at h; cases h; exact .inr (.inr ⟨nofun, rfl⟩)

theorem blockTurn_drop {s t : State} (h : blockTurn s = .next t) : t.drop = s.drop := by
  obtain ⟨-, rfl⟩ | ⟨w, i, -, -, he⟩ | ⟨-, rfl⟩ := blockTurn_cases h
  · rfl
  · rw [exec_frame he]
  · rfl

/-! ### One access of the host, and one step -/

/-- The host writes the operands, `busy`, DROP and the buffer, and uses up the model's own bookkeeping. -/
theorem hostAccess_frame {s t : State} {a : HostAccess} (h : hostAccess s a = .next t) :
    t = { s with src := t.src, len := t.len, dst := t.dst, drop := t.drop, busy := t.busy, mem := t.mem,
                 draws := t.draws, seen := t.seen } := by
  obtain ⟨off, size, -, rfl⟩ | ⟨off, size, v, -, rfl⟩ | ⟨x, -, -, rfl⟩ | ⟨x, v, -, -, -, rfl⟩ := hostAccess_cases h
  · rfl
  · obtain h | ⟨-, -, -, h⟩ | ⟨-, -, -, h⟩ | ⟨-, a, n, d, h⟩ := writeWindow_cases s off size v <;> rw [h]
    rfl
  · rfl
  · rfl

/-- While busy the host changes DROP and the model's own bookkeeping only (10_state.md R29, 20_memory.md R54). -/
theorem hostAccess_busy {s t : State} {a : HostAccess} (hb : s.busy ≠ none) (h : hostAccess s a = .next t) :
    t = { s with drop := t.drop, draws := t.draws, seen := t.seen } := by
  obtain ⟨off, size, -, rfl⟩ | ⟨off, size, v, -, rfl⟩ | ⟨x, -, -, rfl⟩ | ⟨x, v, -, -, hidle, -⟩ := hostAccess_cases h
  · rfl
  · obtain h | ⟨-, -, -, h⟩ | ⟨hidle, -⟩ | ⟨hidle, -⟩ := writeWindow_cases s off size v
    · rw [h]
    · rw [h]
    · exact absurd hidle hb
    · exact absurd hidle hb
  · rfl
  · exact absurd hidle hb

theorem step_host {s : State} {a : HostAccess} {es : List Event} (hc : s.cfg.wf = true)
    (he : s.events = .host a :: es) : step s = hostAccess { s with events := es } a := by
  simp [step, nextEvent, runEvent, hc, he]

theorem step_block {s : State} {es : List Event} (hc : s.cfg.wf = true)
    (he : s.events = .block :: es) : step s = blockTurn { s with events := es } := by
  simp [step, nextEvent, runEvent, hc, he]

theorem step_powerOn {s : State} {es : List Event} (hc : s.cfg.wf = true)
    (he : s.events = .powerOn :: es) : step s = .next (powerOnReset { s with events := es }) := by
  simp [step, nextEvent, runEvent, hc, he]

/-- An aligned 32-bit write of a register (30_encoding.md R78), as a step. -/
theorem step_wrEvent (s : State) (r : Reg) (v : Word) (es : List Event) (hc : s.cfg.wf = true) :
    step { s with events := wrEvent r v :: es } = .next (writeReg { s with events := es } v r) :=
  (step_host (s := { s with events := wrEvent r v :: es }) hc rfl).trans (congrArg _ (writeWindow_offset _ r v))

/-- The three kinds of step: the block's turn, scheduled or with nothing scheduled, a power-on reset, an access of
the host. -/
theorem step_kinds {s t : State} (h : step s = .next t) :
    (∃ es, (s.events = [] ∨ s.events = .block :: es) ∧ blockTurn { s with events := es } = .next t) ∨
    (∃ es, s.events = .powerOn :: es ∧ t = powerOnReset { s with events := es }) ∨
    (∃ a es, s.events = .host a :: es ∧ hostAccess { s with events := es } a = .next t) := by
  obtain ⟨-, ⟨he, ht⟩ | ⟨es, he, ht⟩ | hp | hh⟩ := step_cases h
  · exact .inl ⟨s.events, .inl he, ht⟩
  · exact .inl ⟨es, .inr he, ht⟩
  · exact .inr (.inl hp)
  · exact .inr (.inr hh)

/-! ### Runs -/

theorem run_of_step {M : Host.Core} {s t : M.State} {n : Nat} {o : Host.Outcome M.State M.Fault M.Refusal}
    (h : M.step s = .next t) (hrun : M.run n t = o) : M.run (n + 1) s = o := by
  rw [Host.Core.run, h]
  exact hrun

theorem run_succ_next {M : Host.Core} {s t : M.State} {n : Nat} (h : M.run (n + 1) s = .next t) :
    ∃ u, M.step s = .next u ∧ M.run n u = .next t := by
  rw [Host.Core.run] at h
  split at h
  · next u hu => exact ⟨u, hu, h⟩
  · cases h
  · cases h

/-! ### The command word (30_encoding.md R71, R74) -/

@[simp] theorem cmdOp_commandWord (op sym : Byte) : cmdOp (commandWord op sym) = op := by
  rw [cmdOp, commandWord, BitVec.extractLsb'_append_eq_of_add_le (by decide)]
  simp

@[simp] theorem cmdSym_commandWord (op sym : Byte) : cmdSym (commandWord op sym) = sym := by
  rw [cmdSym, commandWord, BitVec.extractLsb'_append_eq_of_le (by decide),
    BitVec.extractLsb'_append_eq_of_add_le (by decide)]
  simp

@[simp] theorem cmdRsv_commandWord (op sym : Byte) : cmdRsv (commandWord op sym) = 0 := by
  rw [cmdRsv, commandWord, BitVec.extractLsb'_append_eq_of_le (by decide),
    BitVec.extractLsb'_append_eq_of_le (by decide)]
  simp

theorem decode_encode (i : Instr) : decode (encode i) = .instr i := by
  cases i <;> simp [encode, decode, decodeFixed]

end Sys2Proof.Machine

/-! PROOFS. The invariant of the state: reset meets it and every step keeps it. -/

namespace Sys2Proof.Machine

section
variable {s t : State}

/-- The invariant speaks of the configuration, the buffer, ERR, the histogram, the tree and the code table only. -/
theorem State.Inv.congr (h : s.Inv) (hcfg : t.cfg = s.cfg) (hmem : t.mem = s.mem) (herr : t.err.toNat ≤ 4)
    (hhist : t.hist = s.hist) (htree : t.tree = s.tree) (hcode : t.code = s.code) : t.Inv where
  config := hcfg ▸ h.config
  memForm := hmem ▸ h.memForm
  memBound := by rw [hmem, hcfg]; exact h.memBound
  errCode := herr
  counts := by rw [hhist, hcfg]; exact h.counts
  held := by rw [htree, hcode, hcfg]; exact h.held
  noTree := by rw [htree, hcode]; exact h.noTree

theorem State.Inv.withMem (h : s.Inv) {m : Memory} (hform : Memory.wf m) (hbound : ∀ p ∈ m, p.1 < s.cfg.memBytes) :
    State.Inv { s with mem := m } :=
  { h with memForm := hform, memBound := hbound }

theorem State.Inv.withHist (h : s.Inv) {k : Hist} (hk : total k ≤ s.cfg.memBytes) : State.Inv { s with hist := k } :=
  { h with counts := hk }

theorem State.Inv.withoutTree (h : s.Inv) : State.Inv { s with tree := none, code := noCodes } :=
  { h with held := nofun, noTree := fun _ => rfl }

/-- A tree built from the histogram meets R39, since no sum of its weights overflows (R7, R35). -/
theorem State.Inv.holdTree (h : s.Inv) {tr : HeldTree} (hb : build s.cfg s.hist = some tr) : (holdTree s tr).Inv := by
  have hcfg := h.config
  simp only [Config.wf, Bool.and_eq_true, decide_eq_true_eq] at hcfg
  have hwf := build_wf (Nat.lt_of_le_of_lt h.counts (by omega)) hb
  refine { h with held := fun t ht => ?_, noTree := nofun }
  cases ht
  rw [nleaf, hwf.leaves]
  exact ⟨hwf, rfl⟩

theorem CmdError.code_le (e : CmdError) : e.code.toNat ≤ 4 := by cases e <;> decide

theorem State.Inv.complete (h : s.Inv) (r : Word) : (complete s r).Inv :=
  h.congr rfl rfl (Nat.zero_le _) rfl rfl rfl

theorem State.Inv.raiseCmdError (h : s.Inv) (e : CmdError) (r : Word) : (raiseCmdError s e r).Inv :=
  h.congr rfl rfl e.code_le rfl rfl rfl

theorem State.Inv.commitOutput (h : s.Inv) {out : Text} (hd : dstInRange s out.length) : (commitOutput s out).Inv := by
  refine (h.withMem (Memory.wf_writeText h.memForm s.dst.toNat out) fun p hp => ?_).complete _
  obtain ⟨hlo, hhi⟩ | hp := Memory.mem_writeText hp
  · obtain hd | hd := hd <;> omega
  · exact h.memBound p hp

theorem State.Inv.completesAs {i : Instr} (h : s.Inv) (ht : CompletesAs i s t) : t.Inv := by
  cases ht with
  | result r => exact h.complete r
  | error e r => exact h.raiseCmdError e r
  | cleared => exact (h.withoutTree.withHist (by simp)).complete 0
  | counted _ hs r => exact (h.withHist (total_count_inputText_le hs)).complete r
  | built _ tr hb r => exact (h.holdTree hb).complete r
  | encoded _ _ hs tr hb out hd => exact ((h.withHist (total_count_inputText_le hs)).holdTree hb).commitOutput hd
  | output out hd => exact h.commitOutput hd

theorem State.Inv.blockTurn (h : s.Inv) (ht : blockTurn s = .next t) : t.Inv := by
  obtain ⟨-, rfl⟩ | ⟨w, i, -, -, he⟩ | ⟨-, rfl⟩ := blockTurn_cases ht
  · exact h
  · exact h.completesAs (exec_completesAs he)
  · exact h.raiseCmdError _ _

theorem State.Inv.hostAccess {a : HostAccess} (h : s.Inv) (ht : hostAccess s a = .next t) : t.Inv := by
  obtain ⟨off, size, -, rfl⟩ | ⟨off, size, v, -, rfl⟩ | ⟨x, -, -, rfl⟩ | ⟨x, v, -, hx, -, rfl⟩ := hostAccess_cases ht
  · exact h.congr rfl rfl h.errCode rfl rfl rfl
  · obtain he | ⟨-, -, -, he⟩ | ⟨-, -, -, he⟩ | ⟨-, a, n, d, he⟩ := writeWindow_cases s off size v <;> rw [he] <;>
      exact h.congr rfl rfl h.errCode rfl rfl rfl
  · exact h.congr rfl rfl h.errCode rfl rfl rfl
  · refine h.withMem (Memory.wf_write h.memForm x v) fun p hp => ?_
    obtain rfl | hp := Memory.mem_write hp
    · exact hx
    · exact h.memBound p hp

end

/-- An empty buffer, no counts and no tree meet the invariant, whatever the parameters within R6's bounds. -/
theorem reset_inv {c : Config} (hc : c.wf = true) : State.Inv { State.reset with cfg := c } where
  config := hc
  memForm := Memory.wf_nil
  memBound := nofun
  errCode := Nat.zero_le _
  counts := by simp
  held := nofun
  noTree _ := rfl

theorem State.Inv.powerOnReset {s : State} (h : s.Inv) : (powerOnReset s).Inv :=
  (reset_inv h.config).congr rfl rfl (Nat.zero_le _) rfl rfl rfl

/-- Settles O59: the block's turn, the host's accesses and power-on reset each keep the invariant. -/
theorem stepKeepsInvariant : Obligations.StepKeepsInvariant := by
  intro s t h hstep
  have later : ∀ es, State.Inv { s with events := es } := fun es => h.congr rfl rfl h.errCode rfl rfl rfl
  obtain ⟨es, -, ht⟩ | ⟨es, -, rfl⟩ | ⟨a, es, -, ht⟩ := step_kinds hstep
  · exact (later es).blockTurn ht
  · exact (later es).powerOnReset
  · exact (later es).hostAccess ht

/-- Settles O60, from `reset_inv` at the default parameters and at any others. -/
theorem resetMeetsInvariant : Obligations.ResetMeetsInvariant :=
  ⟨reset_inv (c := Config.standard) (by decide), fun _ => reset_inv⟩

end Sys2Proof.Machine

/-! PROOFS. The register window from the host: CMD, the operands, STATUS and the derived registers. -/

namespace Sys2Proof.Machine

/-- Settles O43: a CMD write goes through `writeUnlessBusy`, and CMD reads 0 whatever the free word. -/
theorem cmdWriteAcceptedWhenIdle : Obligations.CmdWriteAcceptedWhenIdle := by
  intro s v
  refine ⟨fun hidle => ?_, fun hbusy => ?_, hostSees_always s (r := .cmd) fun _ => rfl⟩
  · exact congrArg _ (writeUnlessBusy_idle s (acceptCommand s v) hidle)
  · exact congrArg _ (writeWindow_dropped v hbusy (by decide))

/-- Settles O44: an access that reaches no register, or a read-only one, changes nothing. -/
theorem windowAccessRules : Obligations.WindowAccessRules := by
  intro s off size v
  refine ⟨fun h => ⟨?_, ?_⟩, fun h => ?_, ⟨_, hostSees_regRead s off size⟩, fun hbusy h => ?_⟩
  · exact readWindow_none s (accessedReg_eq_none h) ▸ hostSees_regRead s off size
  · exact congrArg _ (writeWindow_none s v (accessedReg_eq_none h))
  · have readOnly : ∀ o ∈ ([0x00, 0x08, 0x18, 0x1C, 0x20, 0x24, 0x28] : List Byte),
        o ∉ ([0x04, 0x0C, 0x10, 0x14] : List Byte) := by decide
    exact congrArg _ (writeWindow_ignored s size v (readOnly off h))
  · exact congrArg _ (writeWindow_dropped v hbusy h)

/-- Settles O45: the operands are written by `writeUnlessBusy` only, and `exec_frame` keeps them. -/
theorem operandRegisters : Obligations.OperandRegisters := by
  refine ⟨fun s v hidle => ⟨?_, ?_, ?_⟩, fun s => ⟨?_, ?_, ?_⟩, fun i s t h => ?_⟩
  · exact congrArg _ (writeUnlessBusy_idle s { s with src := v } hidle)
  · exact congrArg _ (writeUnlessBusy_idle s { s with len := v } hidle)
  · exact congrArg _ (writeUnlessBusy_idle s { s with dst := v } hidle)
  · exact hostSees_always s (r := .src) fun _ => rfl
  · exact hostSees_always s (r := .len) fun _ => rfl
  · exact hostSees_always s (r := .dst) fun _ => rfl
  · rw [exec_frame h]
    exact ⟨rfl, rfl, rfl, rfl, rfl, rfl, rfl, rfl, rfl⟩

/-- Settles O47: bit by bit, from the one form of STATUS both idle and busy. -/
theorem statusFields : Obligations.StatusFields := by
  intro s
  obtain ⟨valid, e, hsees, hidle⟩ := hostSees_status s
  refine ⟨_, hsees, ?_, by simp, by simp, by simp, fun hb => ?_⟩
  · simp [Option.isSome_iff_ne_none]
  · obtain ⟨rfl, rfl⟩ := hidle hb
    simp [Option.isSome_iff_ne_none]

/-- Settles O48: the derived registers are sums over the counters, which the invariant bounds. -/
theorem derivedRegisters : Obligations.DerivedRegisters := by
  intro s h hidle
  have hcfg := h.config
  simp only [Config.wf, Bool.and_eq_true, decide_eq_true_eq] at hcfg
  have hnleaf := hostSees_idle hidle .nleaf
  rw [← nsym_eq_length, ← total_eq_sum]
  refine ⟨hostSees_idle hidle .id, hostSees_idle hidle .result, hostSees_idle hidle .nsym, hostSees_idle hidle .total,
    h.counts.trans (by omega), fun ht => ?_, fun t ht => ?_, hostSees_idle hidle .memsize⟩
  · rwa [regValue, ht] at hnleaf
  · obtain ⟨hwf, -⟩ := h.held t ht
    rw [regValue, ht] at hnleaf
    exact ⟨hnleaf, hwf.atLeast, hwf.atMost⟩

/-- Settles O49: from `regValueBusy`, and one draw a read. -/
theorem readsWhileBusy : Obligations.ReadsWhileBusy := by
  intro s hbusy
  obtain ⟨valid, e, hsees, -⟩ := hostSees_status s
  refine ⟨⟨_, hsees, ?_, by simp, by simp, by simp⟩, hostSees_busy hbusy .src, hostSees_busy hbusy .len,
    hostSees_busy hbusy .dst, hostSees_busy hbusy .id, hostSees_busy hbusy .memsize,
    fun off _ => ⟨readWindow s off 4, _, rfl, ?_⟩⟩
  · simpa [Option.isSome_iff_ne_none] using hbusy
  · rw [logRead, if_pos (Option.isSome_iff_ne_none.mpr hbusy)]

/-- Settles O53: every register reads its value in an idle state. -/
theorem powerOnValues : Obligations.PowerOnValues := by
  rintro c r rfl
  have hnsym := hostSees_idle (s := { State.reset with cfg := c }) rfl .nsym
  have htotal := hostSees_idle (s := { State.reset with cfg := c }) rfl .total
  have hstatus := hostSees_idle (s := { State.reset with cfg := c }) rfl .status
  have hzero : statusWord false false 0 false = 0 := by decide
  simp only [regValue, reset_hist, nsym_noCounts, total_noCounts] at hnsym htotal
  simp only [regValue, reset_busy, reset_tree, reset_err, reset_drop, Option.isSome_none, hzero] at hstatus
  refine ⟨rfl, rfl, rfl, rfl, rfl, rfl, rfl, histAt_noCounts, rfl, codeAt_noCodes, fun a => rfl,
    hstatus, hostSees_idle rfl .id, hnsym, htotal, hostSees_idle rfl .nleaf,
    hostSees_idle rfl .memsize, ?_⟩
  rintro m src len dst s rfl
  exact execDecode_noTree (s := { State.reset with cfg := c, mem := m, src := src, len := len, dst := dst }) rfl

end Sys2Proof.Machine

/-! PROOFS. What a step writes: DROP, the histogram, the held tree; the busy window, and a write that races with a
completion. -/

namespace Sys2Proof.Machine

/-- What a step does to DROP: nothing, set it by a dropped write, or clear it by an accepted command or a reset. -/
theorem step_drop {s t : State} (h : step s = .next t) :
    t.drop = s.drop ∨
    (t.drop = true ∧ s.busy ≠ none ∧ ∃ off v es,
      off ∈ ([0x04, 0x0C, 0x10, 0x14] : List Byte) ∧ s.events = .host (.regWrite off 4 v) :: es) ∨
    (t.drop = false ∧
      ((s.busy = none ∧ ∃ v es, s.events = .host (.regWrite 0x04 4 v) :: es) ∨ ∃ es, s.events = .powerOn :: es)) := by
  obtain ⟨es, -, ht⟩ | ⟨es, he, rfl⟩ | ⟨a, es, he, ht⟩ := step_kinds h
  · have hdrop := blockTurn_drop ht
    exact .inl hdrop
  · exact .inr (.inr ⟨rfl, .inr ⟨es, he⟩⟩)
  · obtain ⟨off, size, -, rfl⟩ | ⟨off, size, v, rfl, rfl⟩ | ⟨x, -, -, rfl⟩ | ⟨x, v, -, -, -, rfl⟩ :=
      hostAccess_cases ht
    · exact .inl rfl
    · obtain hw | ⟨hb, rfl, hoff, hw⟩ | ⟨hb, rfl, rfl, hw⟩ | ⟨-, a, n, d, hw⟩ :=
        writeWindow_cases { s with events := es } off size v <;> rw [hw]
      · exact .inl rfl
      · exact .inr (.inl ⟨rfl, hb, off, v, es, hoff, he⟩)
      · exact .inr (.inr ⟨rfl, .inl ⟨hb, v, es, he⟩⟩)
      · exact .inl rfl
    · exact .inl rfl
    · exact .inl rfl

/-- Settles O46: from the one inversion of a step's effect on DROP. -/
theorem dropSetAndCleared : Obligations.DropSetAndCleared := by
  intro s t h
  obtain ⟨hc, -⟩ := step_cases h
  refine ⟨fun off v es hoff hbusy he => ?_, fun hs ht => ?_, fun hs ht => ?_, fun v es hidle he => ?_, fun es he => ?_⟩
  · rw [step_host hc he] at h
    cases h
    exact writeWindow_dropped v hbusy hoff
  · obtain hd | ⟨-, hset⟩ | ⟨hd, -⟩ := step_drop h
    · exact nomatch hs.symm.trans (hd.symm.trans ht)
    · exact hset
    · exact nomatch hd.symm.trans ht
  · obtain hd | ⟨hd, -⟩ | ⟨-, hclear⟩ := step_drop h
    · exact nomatch hs.symm.trans (hd.symm.trans ht)
    · exact nomatch hd.symm.trans ht
    · exact hclear
  · rw [step_host hc he] at h
    cases h
    exact congrArg State.drop (writeUnlessBusy_idle { s with events := es } _ hidle)
  · rw [step_powerOn hc he] at h
    cases h
    rfl

/-- An access of the host writes neither the histogram nor the tree nor the code table. -/
theorem hostAccess_codec {s t : State} {a : HostAccess} (h : hostAccess s a = .next t) :
    t.hist = s.hist ∧ t.tree = s.tree ∧ t.code = s.code := by
  rw [hostAccess_frame h]
  exact ⟨rfl, rfl, rfl⟩

/-- A step that writes the histogram, the tree or the code table is a power-on reset or the completion of a command. -/
theorem step_codec {s t : State} (h : step s = .next t) :
    (t.hist = s.hist ∧ t.tree = s.tree ∧ t.code = s.code) ∨
    (t.hist = noCounts ∧ t.tree = none ∧ t.code = noCodes ∧ ∃ es, s.events = .powerOn :: es) ∨
    ∃ w i, s.busy = some w ∧ decode w = .instr i ∧ (s.events = [] ∨ ∃ es, s.events = .block :: es) ∧
      ∃ es, CompletesAs i { s with events := es } t := by
  obtain ⟨es, he, ht⟩ | ⟨es, he, rfl⟩ | ⟨a, es, -, ht⟩ := step_kinds h
  · obtain ⟨-, rfl⟩ | ⟨w, i, hb, hd, hi⟩ | ⟨-, rfl⟩ := blockTurn_cases ht
    · exact .inl ⟨rfl, rfl, rfl⟩
    · exact .inr (.inr ⟨w, i, hb, hd, he.imp_right fun he => ⟨es, he⟩, es, exec_completesAs hi⟩)
    · exact .inl ⟨rfl, rfl, rfl⟩
  · exact .inr (.inl ⟨rfl, rfl, rfl, es, he⟩)
  · have hsame := hostAccess_codec ht
    exact .inl hsame

/-- Settles O55: of the ends of a command three replace the histogram. -/
theorem histogramWriters : Obligations.HistogramWriters := by
  intro s t h
  obtain ⟨hsame, -⟩ | ⟨hnone, -, -, he⟩ | ⟨w, i, hb, hd, he, es, ht⟩ := step_codec h
  · exact .inl hsame
  · exact .inr (.inl ⟨hnone, he⟩)
  cases ht with
  | result | error | built | output => exact .inl rfl
  | cleared hi => exact .inr (.inr ⟨w, i, hb, hd, he, .inl ⟨hi, rfl⟩⟩)
  | counted hi => exact .inr (.inr ⟨w, i, hb, hd, he, .inr (.inl ⟨hi, rfl⟩)⟩)
  | encoded hi hl => exact .inr (.inr ⟨w, i, hb, hd, he, .inr (.inr ⟨hi, hl, rfl, rfl⟩)⟩)

/-- Settles O56: of the ends of a command three replace the tree, each with its code table. -/
theorem treeReplacedAsWhole : Obligations.TreeReplacedAsWhole := by
  intro s t h
  obtain ⟨-, hsame⟩ | ⟨-, htree, hcode, he⟩ | ⟨w, i, hb, hd, he, es, ht⟩ := step_codec h
  · exact .inl hsame
  · exact .inr (.inl ⟨htree, hcode, he⟩)
  cases ht with
  | result | error | counted | output => exact .inl ⟨rfl, rfl⟩
  | cleared hi => exact .inr (.inr ⟨w, i, hb, hd, he, .inl ⟨hi, rfl, rfl⟩⟩)
  | built hi tr htr =>
    have present : ∃ b, histAt s.hist b ≠ 0 := by
      by_contra hzero
      have hnone : build s.cfg s.hist = none := build_eq_none.mpr (by simpa using hzero)
      exact nomatch hnone.symm.trans htr
    exact .inr (.inr ⟨w, i, hb, hd, he, .inr (.inl ⟨tr, hi, present, htr, rfl, rfl⟩)⟩)
  | encoded hi hl _ tr htr => exact .inr (.inr ⟨w, i, hb, hd, he, .inr (.inr ⟨tr, hi, hl, rfl, htr, rfl, rfl⟩)⟩)

/-- A run of host accesses from a busy state changes DROP and the model's own bookkeeping only. -/
theorem run_hostAccesses_busy (as : List HostAccess) (es : List Event) {s t : State} (hb : s.busy ≠ none)
    (he : s.events = as.map .host ++ es) (h : Host.Core.run Sys2Proof.core as.length s = .next t) :
    t = { s with drop := t.drop, events := es, seen := t.seen, draws := t.draws } := by
  induction as generalizing s with
  | nil =>
    cases h
    rw [List.map_nil, List.nil_append] at he
    rw [← he]
  | cons a as ih =>
    obtain ⟨u, hstep, hrun⟩ := run_succ_next h
    obtain ⟨hc, -⟩ := step_cases hstep
    have haccess : hostAccess { s with events := as.map .host ++ es } a = .next u := (step_host hc he).symm.trans hstep
    have hu := hostAccess_busy (s := { s with events := as.map .host ++ es }) hb haccess
    have ht := ih (s := u) (by rw [hu]; exact hb) (by rw [hu]) hrun
    rw [hu] at ht
    exact ht

/-- Settles O40: by induction on the accesses. -/
theorem busyWindowKeepsCommand : Obligations.BusyWindowKeepsCommand := by
  intro as es s t w hb he h
  have ht := run_hostAccesses_busy as es (by simp [hb]) he h
  have hbt : t.busy = some w := by rw [ht, hb]
  obtain ⟨valid, e, hsees, -⟩ := hostSees_status t
  exact ⟨ht, _, hsees, by simp [hbt]⟩

/-- Settles O42: the command does the same whatever DROP and the schedule are (`exec_bookkeeping`). -/
theorem racingWriteBothOutcomes : Obligations.RacingWriteBothOutcomes := by
  intro s i v hc hidle
  have accepts : ∀ es, step { s with events := wrEvent .cmd (encode i) :: es } =
      .next { s with drop := false, busy := some (encode i), events := es } := fun es =>
    (step_wrEvent s .cmd _ es hc).trans (congrArg _ (writeUnlessBusy_idle { s with events := es } _ hidle))
  have turn : ∀ d es, step { s with drop := d, busy := some (encode i), events := .block :: es } =
      exec i { s with drop := d, busy := some (encode i), events := es } := fun d es =>
    (step_block (s := { s with drop := d, busy := some (encode i), events := .block :: es }) hc rfl).trans
      (blockTurn_instr rfl (decode_encode i))
  obtain ⟨t, ht, hlate⟩ := exec_bookkeeping i { s with drop := false, busy := some (encode i), events := [] }
    false [wrEvent .dst v] s.seen s.draws
  obtain ⟨t', ht', hearly⟩ := exec_bookkeeping i { s with drop := false, busy := some (encode i), events := [] }
    true [] s.seen s.draws
  obtain rfl : t = t' := Host.Outcome.next.inj (ht.symm.trans ht')
  have hframe := exec_frame ht
  have hcfg : t.cfg.wf = true := by rw [hframe]; exact hc
  have hdone : t.busy = none := by rw [hframe]
  have writes : step { t with drop := false, events := [wrEvent .dst v], seen := s.seen, draws := s.draws } =
      .next { t with drop := false, events := [], seen := s.seen, draws := s.draws, dst := v } :=
    (step_wrEvent { t with drop := false, seen := s.seen, draws := s.draws } .dst v [] hcfg).trans
      (congrArg _ (writeUnlessBusy_idle _ _ hdone))
  have drops : step { s with drop := false, busy := some (encode i), events := [wrEvent .dst v, .block] } =
      .next { s with drop := true, busy := some (encode i), events := [.block] } :=
    (step_wrEvent { s with drop := false, busy := some (encode i) } .dst v [.block] hc).trans
      (congrArg _ (writeUnlessBusy_busy _ _ _ rfl))
  refine ⟨t, ht, by rw [hframe], ?_, ?_⟩
  · refine run_of_step (M := Sys2Proof.core) (accepts _) (run_of_step ((turn _ _).trans hlate) (run_of_step writes ?_))
    rw [hframe]
    rfl
  · refine run_of_step (M := Sys2Proof.core) (accepts _) (run_of_step drops (run_of_step ((turn _ _).trans hearly) ?_))
    rw [hframe]
    rfl

end Sys2Proof.Machine

/-! PROOFS. The buffer from the host and the bus map (20_memory.md R50 to R52), the regions of the buffer a command
reads and writes (R54), and a command under the busy protocol as one event (R62). -/

namespace Sys2Proof.Machine

/-! ### The host's buffer accesses -/

/-- A read while idle changes what the host has seen, and nothing else (10_state.md R23(d)). -/
theorem logRead_whileIdle {s : State} (v : Seen) (hidle : s.busy = none) :
    logRead s v = { s with seen := s.seen ++ [v] } := by
  rw [logRead, if_neg (by simp [hidle])]

/-- A read while busy also uses up one free value (R29). -/
theorem logRead_whileBusy {s : State} (v : Seen) (hbusy : s.busy ≠ none) :
    logRead s v = { s with seen := s.seen ++ [v], draws := s.draws + 1 } := by
  rw [logRead, if_pos (Option.isSome_iff_ne_none.mpr hbusy)]

theorem hostByte_idle {s : State} (a : Nat) (hidle : s.busy = none) : hostByte s a = s.readByte a := by
  rw [hostByte, if_neg (by simp [hidle])]

theorem hostAccess_bufRead {s : State} {a : Nat} (ha : a < s.cfg.memBytes) :
    hostAccess s (.bufRead a) = .next (logRead s (.byte (hostByte s a))) :=
  if_neg (Nat.not_le.mpr ha)

theorem hostAccess_bufWrite_idle {s : State} {a : Nat} (v : Byte) (ha : a < s.cfg.memBytes) (hidle : s.busy = none) :
    hostAccess s (.bufWrite a v) = .next { s with mem := Memory.write s.mem a v } := by
  rw [hostAccess, if_neg (Nat.not_le.mpr ha), hidle]
  rfl

theorem hostAccess_bufWrite_busy {s : State} {a : Nat} (v : Byte) (ha : a < s.cfg.memBytes) (hbusy : s.busy ≠ none) :
    hostAccess s (.bufWrite a v) = .refused .bufferWriteWhileBusy := by
  rw [hostAccess, if_neg (Nat.not_le.mpr ha), if_pos (Option.isSome_iff_ne_none.mpr hbusy)]

/-- A byte reads the same in two states whose memories agree there, after the same number of power-on resets. -/
theorem readByte_congr {s t : State} {a : Nat} (hread : Memory.read t.mem a = Memory.read s.mem a)
    (hpow : t.powerOns = s.powerOns) : t.readByte a = s.readByte a := by
  rw [State.readByte, State.readByte, hread, hpow]

/-- A byte that the memory lists reads as listed. -/
theorem readByte_of_read {s : State} {a : Nat} {v : Byte} (h : Memory.read s.mem a = some v) : s.readByte a = v := by
  rw [State.readByte, h, Option.getD_some]

/-- Settles O50: while idle a read returns the byte and a write goes to `Memory.write`. -/
theorem hostBufferAccess : Obligations.HostBufferAccess := by
  intro s a v
  refine ⟨fun hidle ha => ⟨⟨_, hostAccess_bufRead ha, ?_⟩, _, hostAccess_bufWrite_idle v ha hidle, ?_, fun x hx => ?_,
    rfl⟩, fun ha => ⟨if_pos ha, if_pos ha⟩⟩
  · rw [hostByte_idle a hidle, logRead_whileIdle _ hidle]
  · exact readByte_of_read (Memory.read_write_same s.mem a v)
  · exact readByte_congr (Memory.read_write_other s.mem a x v hx) rfl

/-- Settles O51: while busy a read uses up one free value and a write has no meaning. -/
theorem hostBufferAccessWhileBusy : Obligations.HostBufferAccessWhileBusy := by
  intro s a v hbusy ha
  exact ⟨⟨hostByte s a, _, hostAccess_bufRead ha, logRead_whileBusy _ hbusy⟩, hostAccess_bufWrite_busy v ha hbusy⟩

/-! ### The bus map -/

theorem windowOffset_regBase (p : Platform) (off : Byte) : windowOffset p (p.regBase + off.toNat) = some off := by
  have hoff := off.isLt
  rw [windowOffset, if_pos (by omega), Nat.add_sub_cancel_left, BitVec.ofNat_toNat, BitVec.setWidth_eq]

/-- On a platform without overlap no buffer address lies in the register window. -/
theorem windowOffset_bufBase {p : Platform} {c : Config} (hp : p.wf c = true) {a : Nat} (ha : a < c.memBytes) :
    windowOffset p (p.bufBase + a) = none := by
  simp only [Platform.wf, Bool.or_eq_true, decide_eq_true_eq] at hp
  exact if_neg (by omega)

theorem bufferAddr_bufBase (p : Platform) {c : Config} {a : Nat} (ha : a < c.memBytes) :
    bufferAddr p c (p.bufBase + a) = some a := by
  rw [bufferAddr, if_pos (by omega), Nat.add_sub_cancel_left]

/-- Settles O52: the window's addresses come first in the map, and no buffer address is one of them. -/
theorem busMapReachesBothSpaces : Obligations.BusMapReachesBothSpaces := by
  intro p c hp
  refine ⟨fun off size v => ⟨?_, ?_⟩, fun a b ha => ⟨?_, ?_⟩⟩
  · rw [busRead, windowOffset_regBase]
  · rw [busWrite, windowOffset_regBase]
  · rw [busRead, windowOffset_bufBase hp ha, bufferAddr_bufBase p ha]
    rfl
  · have hbyte : (b.setWidth 32).extractLsb' 0 8 = b := by
      rw [← BitVec.setWidth_eq_extractLsb' (by decide), BitVec.setWidth_setWidth_of_le _ (by decide),
        BitVec.setWidth_eq]
    rw [busWrite, windowOffset_bufBase hp ha, bufferAddr_bufBase p ha]
    exact congrArg (fun x => some (HostAccess.bufWrite a x)) hbyte

/-! ### The output region of a command (R54) -/

/-- What a command stores is one text at DST, no longer than RESULT says; most ends store the empty text. -/
theorem exec_writesText {i : Instr} {s t : State} (hc : s.cfg.wf = true) (h : exec i s = .next t) :
    ∃ out, t.mem = writeText s.mem s.dst.toNat out ∧ out.length ≤ t.result.toNat := by
  have fits : ∀ out : Text, dstInRange s out.length → out.length ≤ (BitVec.ofNat 32 out.length).toNat := by
    intro out hd
    simp only [Config.wf, Bool.and_eq_true, decide_eq_true_eq] at hc
    rw [BitVec.toNat_ofNat, Nat.mod_eq_of_lt (by obtain hd | hd := hd <;> omega)]
  cases exec_completesAs h with
  | result | error | cleared | counted | built => exact ⟨[], rfl, Nat.zero_le _⟩
  | encoded _ _ _ tr _ out hd => exact ⟨out, rfl, fits out hd⟩
  | output out hd => exact ⟨out, rfl, fits out hd⟩

/-- The commands without an output text keep the whole memory. -/
theorem exec_keepsMem {i : Instr} {s t : State} (h : exec i s = .next t)
    (hi : i = .nop ∨ i = .reset ∨ i = .count ∨ i = .build ∨ ∃ b, i = .rdfreq b) : t.mem = s.mem := by
  obtain rfl | rfl | rfl | rfl | ⟨b, rfl⟩ := hi
  · cases h; rfl
  · cases h; rfl
  · obtain ⟨-, rfl⟩ | ⟨-, rfl⟩ := execCount_cases h <;> rfl
  · obtain ⟨-, rfl⟩ | ⟨tr, -, rfl⟩ := execBuild_cases h <;> rfl
  · cases h; rfl

/-- Settles O57: outside the text that `exec_writesText` names, `writeText` changes nothing. -/
theorem commandWritesOnlyOutputRegion : Obligations.CommandWritesOnlyOutputRegion := by
  intro i s t hc h
  refine ⟨fun a ha => ?_, exec_keepsMem h⟩
  obtain ⟨out, hmem, hlen⟩ := exec_writesText hc h
  refine readByte_congr ?_ (by rw [exec_frame h])
  rw [hmem, read_writeText_outside _ _ _ _ (by omega)]

/-! ### The input region of a command (R54) -/

/-- Of the buffer a command reads the input text only: with another buffer that holds the same input, it stores the
same text at DST and ends alike in everything else. -/
theorem exec_otherBuffer (i : Instr) (s : State) (m : Memory) (p : Nat)
    (hin : inputText { s with mem := m, powerOns := p } = inputText s) :
    ∃ t out, exec i s = .next t ∧ t.mem = writeText s.mem s.dst.toNat out ∧
      exec i { s with mem := m, powerOns := p } =
        .next { t with mem := writeText m s.dst.toNat out, powerOns := p } := by
  cases i with
  | nop => exact ⟨_, [], rfl, rfl, rfl⟩
  | reset => exact ⟨_, [], rfl, rfl, rfl⟩
  | rdfreq b => exact ⟨_, [], rfl, rfl, rfl⟩
  | count =>
    by_cases h : srcInRange s
    · exact ⟨_, [], execCount_in h, rfl, by rw [← hin]; exact execCount_in h⟩
    · exact ⟨_, [], execCount_out h, rfl, execCount_out h⟩
  | build =>
    cases h : build s.cfg s.hist with
    | none => exact ⟨_, [], execBuild_none h, rfl, execBuild_none h⟩
    | some tr => exact ⟨_, [], execBuild_some h, rfl, execBuild_some h⟩
  | rdcode b =>
    cases h : codeAt s.code b with
    | none => exact ⟨_, [], execRdcode_none h, rfl, execRdcode_none h⟩
    | some w =>
      by_cases hd : dstInRange s w.length
      · exact ⟨_, _, execRdcode_in h hd, rfl, execRdcode_in h hd⟩
      · exact ⟨_, [], execRdcode_out h hd, rfl, execRdcode_out h hd⟩
  | encode =>
    by_cases hl : s.len = 0
    · exact ⟨_, [], execEncode_empty hl, rfl, execEncode_empty hl⟩
    by_cases hs : srcInRange s
    · cases hb : build s.cfg (count (inputText s)) with
      | none => exact ⟨_, [], execEncode_noTree hl hs hb, rfl, execEncode_noTree hl hs (hin ▸ hb)⟩
      | some tr =>
        cases he : outputError s (enc (inputText s) (codes tr.arena tr.root)).length with
        | none =>
          refine ⟨_, _, execEncode_output hl hs hb he, rfl, ?_⟩
          rw [← hin] at hb he ⊢
          exact execEncode_output hl hs hb he
        | some e =>
          refine ⟨_, [], execEncode_error hl hs hb he, rfl, ?_⟩
          rw [← hin] at hb he ⊢
          exact execEncode_error hl hs hb he
    · exact ⟨_, [], execEncode_out hl hs, rfl, execEncode_out hl hs⟩
  | decode =>
    rcases Option.eq_none_or_eq_some s.tree with ht | ⟨tr, ht⟩
    · exact ⟨_, [], execDecode_noTree ht, rfl, execDecode_noTree ht⟩
    by_cases hl : s.len = 0
    · exact ⟨_, [], execDecode_empty hl, rfl, execDecode_empty hl⟩
    by_cases hs : srcInRange s
    · cases he : outputError s (dec (inputText s) tr.arena tr.root).length with
      | none =>
        refine ⟨_, _, execDecode_output ht hl hs he, rfl, ?_⟩
        rw [← hin] at he ⊢
        exact execDecode_output ht hl hs he
      | some e =>
        refine ⟨_, [], execDecode_error ht hl hs he, rfl, ?_⟩
        rw [← hin] at he ⊢
        exact execDecode_error ht hl hs he
    · exact ⟨_, [], execDecode_out ht hl hs, rfl, execDecode_out ht hl hs⟩

/-- Settles O58: inside the stored text both runs hold its byte, outside it each keeps its own. -/
theorem commandReadsOnlyInputRegion : Obligations.CommandReadsOnlyInputRegion := by
  rintro i s t m p s' t' rfl hsame h h'
  have hin : inputText { s with mem := m, powerOns := p } = inputText s :=
    readText_congr fun j hj => (hsame _ (Nat.le_add_right _ _) (Nat.add_lt_add_left hj _)).symm
  obtain ⟨u, out, hu, hmem, hu'⟩ := exec_otherBuffer i s m p hin
  obtain rfl : u = t := Host.Outcome.next.inj (hu.symm.trans h)
  obtain rfl := Host.Outcome.next.inj (hu'.symm.trans h')
  refine ⟨rfl, fun a => ?_⟩
  by_cases ha : s.dst.toNat ≤ a ∧ a < s.dst.toNat + out.length
  · obtain ⟨j, rfl⟩ := Nat.exists_eq_add_of_le ha.1
    have hj : j < out.length := by omega
    left
    exact (readByte_of_read (hmem ▸ read_writeText_inside s.mem _ out j hj)).trans
      (readByte_of_read (read_writeText_inside m _ out j hj)).symm
  · have outside : ∀ k : Memory, Memory.read (writeText k s.dst.toNat out) a = Memory.read k a := fun k =>
      read_writeText_outside k _ out a (by omega)
    exact .inr ⟨readByte_congr (hmem ▸ outside s.mem) (by rw [exec_frame h]), readByte_congr (outside m) rfl⟩

/-! ### A command under the busy protocol (R62, 30_encoding.md R79) -/

/-- A run of `m` steps and then `n` is a run of `m + n`. -/
theorem run_add_of_next {M : Host.Core} {s t : M.State} {m : Nat} (n : Nat) (h : M.run m s = .next t) :
    M.run (m + n) s = M.run n t := by
  induction m generalizing s with
  | zero => cases h; rw [Nat.zero_add]
  | succ m ih =>
    obtain ⟨u, hstep, hrun⟩ := run_succ_next h
    rw [Nat.succ_add]
    exact run_of_step hstep (ih hrun)

/-- An aligned 32-bit read of a register (30_encoding.md R78), as a step. -/
theorem step_rdEvent (s : State) (r : Reg) (es : List Event) (hc : s.cfg.wf = true) :
    step { s with events := rdEvent r :: es } =
      .next (logRead { s with events := es } (.word (readWindow s r.offset 4))) :=
  step_host (s := { s with events := rdEvent r :: es }) hc rfl

/-- On an idle block a register read returns the register's value, as a step. -/
theorem step_rdEvent_idle (s : State) (r : Reg) (es : List Event) (hc : s.cfg.wf = true) (hidle : s.busy = none) :
    step { s with events := rdEvent r :: es } =
      .next { s with events := es, seen := s.seen ++ [.word (regValue s r)] } := by
  rw [step_rdEvent s r es hc, readWindow_idle s r hidle]
  exact congrArg _ (logRead_whileIdle _ hidle)

/-- On an idle block a register write that goes through `writeUnlessBusy` takes effect, as a step. -/
theorem step_wrEvent_idle {s t : State} {r : Reg} {v : Word} (es : List Event) (hc : s.cfg.wf = true)
    (hidle : s.busy = none) (hw : writeReg { s with events := es } v r = writeUnlessBusy { s with events := es } t) :
    step { s with events := wrEvent r v :: es } = .next t :=
  (step_wrEvent s r v es hc).trans (congrArg _ (hw.trans (writeUnlessBusy_idle _ _ hidle)))

/-- From an idle block, the operand writes and the command's word leave the command accepted with these operands. -/
theorem run_operandsAndCommand {s : State} (src len dst w : Word) (es : List Event) (hc : s.cfg.wf = true)
    (hidle : s.busy = none) :
    Host.Core.run Sys2Proof.core 4
        { s with events := wrEvent .src src :: wrEvent .len len :: wrEvent .dst dst :: wrEvent .cmd w :: es } =
      .next { s with src := src, len := len, dst := dst, drop := false, busy := some w, events := es } :=
  run_of_step (M := Sys2Proof.core) (step_wrEvent_idle (s := s) (r := .src) _ hc hidle rfl)
    (run_of_step (step_wrEvent_idle (s := { s with src := src }) (r := .len) _ hc hidle rfl)
    (run_of_step (step_wrEvent_idle (s := { s with src := src, len := len }) (r := .dst) _ hc hidle rfl)
    (run_of_step (step_wrEvent_idle (s := { s with src := src, len := len, dst := dst }) (r := .cmd) es hc hidle rfl)
      rfl)))

/-- A poll of STATUS while busy reads BUSY = 1. -/
theorem readWindow_status_busy {s : State} (hbusy : s.busy ≠ none) :
    (readWindow s Reg.status.offset 4).getLsbD 0 = true := by
  obtain ⟨w, hw⟩ := Option.ne_none_iff_exists'.mp hbusy
  rw [readWindow_busy s .status w hw, regValueBusy, BitVec.getLsbD_eq_getElem (by decide), statusWord_busy]

/-- While busy, `k` polls of STATUS read BUSY = 1 and change nothing but the host's record and the free values used. -/
theorem run_pollsBusy (k : Nat) (s : State) (es : List Event) (hc : s.cfg.wf = true) (hbusy : s.busy ≠ none) :
    ∃ (polls : List Word) (d : Nat), polls.length = k ∧ (∀ v ∈ polls, v.getLsbD 0 = true) ∧
      Host.Core.run Sys2Proof.core k { s with events := List.replicate k (rdEvent .status) ++ es } =
        .next { s with events := es, seen := s.seen ++ polls.map .word, draws := d } := by
  induction k generalizing s with
  | zero =>
    refine ⟨[], s.draws, rfl, nofun, ?_⟩
    rw [List.map_nil, List.append_nil]
    rfl
  | succ k ih =>
    have hstep := step_rdEvent s .status (List.replicate k (rdEvent .status) ++ es) hc
    obtain ⟨polls, d, hlen, hpolls, hrun⟩ := ih (logRead s (.word (readWindow s Reg.status.offset 4))) hc hbusy
    refine ⟨readWindow s Reg.status.offset 4 :: polls, d, by rw [List.length_cons, hlen],
      List.forall_mem_cons.mpr ⟨readWindow_status_busy hbusy, hpolls⟩, run_of_step (M := Sys2Proof.core) hstep ?_⟩
    rw [logRead_seen, List.append_assoc] at hrun
    exact hrun

/-- WAIT on an accepted command: the polls, the block's turn, and a last poll that reads the STATUS the command left. -/
theorem run_wait (k : Nat) {s : State} {i : Instr} (hc : s.cfg.wf = true) (hbusy : s.busy = some (encode i)) :
    ∃ (t : State) (polls : List Word) (d : Nat), exec i { s with events := [] } = .next t ∧
      polls.length = k ∧ (∀ v ∈ polls, v.getLsbD 0 = true) ∧
      Host.Core.run Sys2Proof.core (k + 2) { s with events := (HostStmt.wait k).events } =
        .next { t with seen := s.seen ++ polls.map .word ++ [.word (regValue t .status)], draws := d } := by
  obtain ⟨polls, d, hlen, hpolls, hrun⟩ := run_pollsBusy k s [.block, rdEvent .status] hc (by simp [hbusy])
  obtain ⟨t, ht, hexec⟩ := exec_bookkeeping i { s with events := [] } s.drop [rdEvent .status]
    (s.seen ++ polls.map .word) d
  have hframe := exec_frame ht
  have hdrop : t.drop = s.drop := by rw [hframe]
  have hdone : t.busy = none := by rw [hframe]
  have hcfg : t.cfg.wf = true := by rw [hframe]; exact hc
  have turn : step { s with events := [.block, rdEvent .status], seen := s.seen ++ polls.map .word, draws := d } =
      .next { t with events := [rdEvent .status], seen := s.seen ++ polls.map .word, draws := d } := by
    refine (step_block (es := [rdEvent .status]) (by exact hc) rfl).trans ?_
    refine (blockTurn_instr (by exact hbusy) (decode_encode i)).trans (hexec.trans ?_)
    rw [← hdrop]
  have lastPoll : step { t with events := [rdEvent .status], seen := s.seen ++ polls.map .word, draws := d } =
      .next { t with
        events := [], seen := s.seen ++ polls.map .word ++ [.word (regValue t .status)], draws := d } :=
    step_rdEvent_idle { t with seen := s.seen ++ polls.map .word, draws := d } .status [] hcfg hdone
  refine ⟨t, polls, d, ht, hlen, hpolls, (run_add_of_next 2 hrun).trans ?_⟩
  refine run_of_step (M := Sys2Proof.core) turn (run_of_step lastPoll ?_)
  rw [hframe]
  rfl

/-- Settles O41: the host's writes leave the command accepted, and WAIT completes it. -/
theorem commandIsOneEvent : Obligations.CommandIsOneEvent := by
  intro s src len dst i k es hc hidle hes
  have hevents : es = wrEvent .src src :: wrEvent .len len :: wrEvent .dst dst :: wrEvent .cmd (encode i) ::
      (HostStmt.wait k).events := by
    simpa [programEvents, HostStmt.events] using hes
  have hlength : es.length = 4 + (k + 2) := by
    rw [hevents, HostStmt.events]
    simp only [List.length_cons, List.length_append, List.length_replicate, List.length_nil]
    omega
  obtain ⟨t, polls, d, ht, hlen, hpolls, hrun⟩ := run_wait k
    (s := { s with src := src, len := len, dst := dst, drop := false, busy := some (encode i) }) hc rfl
  have hdone : t.busy = none := by rw [exec_frame ht]
  refine ⟨t, _, polls, regValue t .status, ht, Eq.trans ?_ hrun, rfl, rfl, hlen, hpolls, rfl, ?_⟩
  · rw [hlength, hevents]
    exact run_add_of_next (k + 2) (run_operandsAndCommand src len dst (encode i) _ hc hidle)
  · rw [regValue, hdone, BitVec.getLsbD_eq_getElem (by decide), statusWord_busy]
    rfl

end Sys2Proof.Machine

/-! PROOFS. The command word: its fields, the legal words as the commands' words, the opcode table, and the completion
of an illegal word (30_encoding.md). -/

namespace Sys2Proof.Machine

/-! ### A word and its fields (R71) -/

theorem fields_append (w : Word) : cmdRsv w ++ cmdSym w ++ cmdOp w = w := by
  rw [cmdRsv, cmdSym, cmdOp, BitVec.extractLsb'_append_extractLsb'_eq_extractLsb' (by decide),
    BitVec.extractLsb'_append_extractLsb'_eq_extractLsb' (by decide)]
  exact BitVec.extractLsb'_eq_self

/-- A command word is known by its three fields. -/
theorem eq_commandWord_iff {w : Word} {op sym : Byte} :
    w = commandWord op sym ↔ cmdOp w = op ∧ cmdSym w = sym ∧ cmdRsv w = 0 := by
  constructor
  · rintro rfl
    exact ⟨cmdOp_commandWord op sym, cmdSym_commandWord op sym, cmdRsv_commandWord op sym⟩
  · rintro ⟨rfl, rfl, hrsv⟩
    rw [commandWord, ← BitVec.ofNat_eq_ofNat, ← hrsv, fields_append]

/-- OP and SYM in their places (R80). -/
theorem commandWord_eq_or (op sym : Byte) : commandWord op sym = op.setWidth 32 ||| (sym.setWidth 32 <<< 8) := by
  refine BitVec.eq_of_getLsbD_eq fun i hi => ?_
  simp only [commandWord, BitVec.getLsbD_append, BitVec.getLsbD_or, BitVec.getLsbD_shiftLeft, BitVec.getLsbD_setWidth]
  by_cases hop : i < 8
  · simp [hop, hi]
  · by_cases hsym : i - 8 < 8
    · simp [hop, hi, hsym, show i - 8 < 32 by omega, BitVec.getLsbD_of_ge op i (by omega)]
    · simp [hop, hsym, BitVec.getLsbD_of_ge op i (by omega), BitVec.getLsbD_of_ge sym (i - 8) (by omega)]

/-! ### The legal words (R74, R75) -/

theorem legalWord_iff {w : Word} : legalWord w = true ↔
    cmdRsv w = 0 ∧ (cmdOp w).toNat < 8 ∧ (cmdSym w = 0 ∨ 6 ≤ (cmdOp w).toNat) := by
  simp [legalWord, and_assoc]

theorem decode_rsvNonzero {w : Word} (hrsv : cmdRsv w ≠ 0) : decode w = .illegal .rsvNonzero :=
  if_pos hrsv

theorem decode_symNonzero {w : Word} (hrsv : cmdRsv w = 0) (hop : (cmdOp w).toNat ≤ 5) (hsym : cmdSym w ≠ 0) :
    decode w = .illegal .symNonzero := by
  rw [decode, if_neg (not_not.mpr hrsv)]
  generalize (cmdOp w).toNat = n at hop
  interval_cases n <;> exact if_neg hsym

theorem decode_reservedOpcode {w : Word} (hrsv : cmdRsv w = 0) (hop : 8 ≤ (cmdOp w).toNat) :
    decode w = .illegal .reservedOpcode := by
  obtain ⟨n, hn⟩ := Nat.exists_eq_add_of_le' hop
  rw [decode, if_neg (not_not.mpr hrsv), hn]
  rfl

theorem decode_illegal {w : Word} (h : ¬ legalWord w = true) : ∃ why, decode w = .illegal why := by
  by_cases hrsv : cmdRsv w = 0
  · by_cases hop : 8 ≤ (cmdOp w).toNat
    · exact ⟨_, decode_reservedOpcode hrsv hop⟩
    · have hsym : ¬ (cmdSym w = 0 ∨ 6 ≤ (cmdOp w).toNat) := fun hs =>
        h (legalWord_iff.mpr ⟨hrsv, by omega, hs⟩)
      push Not at hsym
      exact ⟨_, decode_symNonzero hrsv (by omega) hsym.1⟩
  · exact ⟨_, decode_rsvNonzero hrsv⟩

/-- The commands without a symbol operand, each at its opcode (R73). -/
def fixedCommands : List Instr := [.nop, .reset, .count, .build, .encode, .decode]

theorem fixedCommands_encode {op : Byte} (hop : op.toNat ≤ 5) :
    ∃ i, fixedCommands[op.toNat]? = some i ∧ encode i = commandWord op 0 := by
  have hval : op = BitVec.ofNat 8 op.toNat := by simp
  generalize op.toNat = n at hop hval
  subst hval
  interval_cases n <;> exact ⟨_, rfl, rfl⟩

theorem eq_encode_fixed {w : Word} (hrsv : cmdRsv w = 0) (hop : (cmdOp w).toNat ≤ 5) (hsym : cmdSym w = 0) :
    ∃ i, fixedCommands[(cmdOp w).toNat]? = some i ∧ w = encode i := by
  obtain ⟨i, hi, henc⟩ := fixedCommands_encode hop
  exact ⟨i, hi, henc ▸ eq_commandWord_iff.mpr ⟨rfl, hsym, hrsv⟩⟩

theorem eq_encode_rdcode {w : Word} (hrsv : cmdRsv w = 0) (hop : cmdOp w = 0x06) :
    w = encode (.rdcode (cmdSym w)) :=
  eq_commandWord_iff.mpr ⟨hop, rfl, hrsv⟩

theorem eq_encode_rdfreq {w : Word} (hrsv : cmdRsv w = 0) (hop : cmdOp w = 0x07) :
    w = encode (.rdfreq (cmdSym w)) :=
  eq_commandWord_iff.mpr ⟨hop, rfl, hrsv⟩

theorem exists_eq_encode {w : Word} (h : legalWord w = true) : ∃ i, w = encode i := by
  obtain ⟨hrsv, hop, hsym⟩ := legalWord_iff.mp h
  obtain hfixed | h6 | h7 : (cmdOp w).toNat ≤ 5 ∨ (cmdOp w).toNat = 6 ∨ (cmdOp w).toNat = 7 := by omega
  · obtain ⟨i, -, hw⟩ := eq_encode_fixed hrsv hfixed (hsym.resolve_right (by omega))
    exact ⟨i, hw⟩
  · exact ⟨_, eq_encode_rdcode hrsv (BitVec.eq_of_toNat_eq h6)⟩
  · exact ⟨_, eq_encode_rdfreq hrsv (BitVec.eq_of_toNat_eq h7)⟩

theorem legalWord_encode : ∀ i : Instr, legalWord (encode i) = true
  | .nop => Laws.EncodeLegal.nop rfl
  | .reset => Laws.EncodeLegal.reset rfl
  | .count => Laws.EncodeLegal.count rfl
  | .build => Laws.EncodeLegal.build rfl
  | .encode => Laws.EncodeLegal.encode rfl
  | .decode => Laws.EncodeLegal.decode rfl
  | .rdcode s => Laws.EncodeLegal.rdcode s rfl
  | .rdfreq s => Laws.EncodeLegal.rdfreq s rfl

theorem decode_eq_instr_iff {w : Word} {i : Instr} : decode w = .instr i ↔ w = encode i := by
  constructor
  · intro hdec
    by_cases hlegal : legalWord w = true
    · obtain ⟨j, rfl⟩ := exists_eq_encode hlegal
      rw [decode_encode, Decoded.instr.injEq] at hdec
      rw [hdec]
    · obtain ⟨why, hill⟩ := decode_illegal hlegal
      rw [hill] at hdec
      cases hdec
  · rintro rfl
    exact decode_encode i

/-- Settles O1: a legal word is some command's word, and an illegal one decodes to no command. -/
theorem decodeInvertsEncode : Obligations.DecodeInvertsEncode :=
  fun _ _ => decode_eq_instr_iff

/-! ### The opcode table (R74) -/

/-- The rows of the fixed commands compare the whole word. -/
theorem fixedRow_match_iff {w : Word} {op : Byte} (hop : op.toNat ≤ 5) :
    w &&& 0xFFFFFFFF = commandWord op 0 ↔ legalWord w = true ∧ cmdOp w = op := by
  have hmask : w &&& 0xFFFFFFFF = w := BitVec.and_allOnes
  rw [hmask, eq_commandWord_iff, legalWord_iff]
  constructor
  · rintro ⟨rfl, hsym, hrsv⟩
    exact ⟨⟨hrsv, by omega, .inl hsym⟩, rfl⟩
  · rintro ⟨⟨hrsv, -, hsym⟩, rfl⟩
    exact ⟨rfl, hsym.resolve_right (by omega), hrsv⟩

/-- The rows of RDCODE and RDFREQ compare OP and RSV. -/
theorem symRow_match_iff {w : Word} {op : Byte} (hlow : 6 ≤ op.toNat) (hhigh : op.toNat ≤ 7) :
    w &&& 0xFFFF00FF = commandWord op 0 ↔ legalWord w = true ∧ cmdOp w = op := by
  have hop : cmdOp (w &&& 0xFFFF00FF) = cmdOp w := by
    rw [cmdOp, BitVec.extractLsb'_and]
    exact BitVec.and_allOnes
  have hsym : cmdSym (w &&& 0xFFFF00FF) = 0 := by
    rw [cmdSym, BitVec.extractLsb'_and]
    exact BitVec.and_zero
  have hrsv : cmdRsv (w &&& 0xFFFF00FF) = cmdRsv w := by
    rw [cmdRsv, BitVec.extractLsb'_and]
    exact BitVec.and_allOnes
  rw [eq_commandWord_iff, hop, hsym, hrsv, legalWord_iff]
  constructor
  · rintro ⟨rfl, -, hzero⟩
    exact ⟨⟨hzero, by omega, .inr hlow⟩, rfl⟩
  · rintro ⟨⟨hzero, -, -⟩, rfl⟩
    exact ⟨rfl, rfl, hzero⟩

/-- A word matches a row of the opcode table when it is legal and has the row's opcode. -/
theorem row_match_iff {w : Word} {r : OpcodeRow} (hr : r ∈ opcodeTable) :
    w &&& r.mask = r.value ↔ legalWord w = true ∧ cmdOp w = cmdOp r.value := by
  simp only [opcodeTable, List.mem_cons, List.not_mem_nil, or_false] at hr
  obtain rfl | rfl | rfl | rfl | rfl | rfl | rfl | rfl := hr
  · exact fixedRow_match_iff (op := 0x00) (by decide)
  · exact fixedRow_match_iff (op := 0x01) (by decide)
  · exact fixedRow_match_iff (op := 0x02) (by decide)
  · exact fixedRow_match_iff (op := 0x03) (by decide)
  · exact fixedRow_match_iff (op := 0x04) (by decide)
  · exact fixedRow_match_iff (op := 0x05) (by decide)
  · exact symRow_match_iff (op := 0x06) (by decide) (by decide)
  · exact symRow_match_iff (op := 0x07) (by decide) (by decide)

theorem matchingRows_legal {w : Word} (h : legalWord w = true) :
    matchingRows w = opcodeTable.filter fun r => decide (cmdOp w = cmdOp r.value) :=
  List.filter_congr fun r hr => by simp [row_match_iff hr, h]

theorem matchingRows_illegal {w : Word} (h : ¬ legalWord w = true) : matchingRows w = [] :=
  List.filter_eq_nil_iff.mpr fun r hr => by simp [row_match_iff hr, h]

/-- The row of a command, found by its opcode. -/
theorem matchingRows_encode (i : Instr) : ∃ r, matchingRows (encode i) = [r] ∧ r.mnemonic = mnemonic i := by
  rw [matchingRows_legal (legalWord_encode i)]
  cases i <;> rw [encode, cmdOp_commandWord] <;> exact ⟨_, rfl, rfl⟩

/-- Settles O2: a word outside the illegal cases is the word of its command, which matches that command's row only. -/
theorem decodeFollowsOpcodeTable : Obligations.DecodeFollowsOpcodeTable := by
  intro w
  refine ⟨fun hrsv => ⟨_, decode_rsvNonzero hrsv⟩,
    fun hrsv hop => decode_eq_instr_iff.mpr (eq_encode_rdcode hrsv hop),
    fun hrsv hop => decode_eq_instr_iff.mpr (eq_encode_rdfreq hrsv hop),
    fun hrsv hop hsym => ?_,
    fun hrsv hop hsym => ⟨_, decode_symNonzero hrsv hop hsym⟩,
    fun hrsv hop => ⟨_, decode_reservedOpcode hrsv hop⟩,
    fun i hdec => ?_, fun why hill => matchingRows_illegal fun hlegal => ?_⟩
  · obtain ⟨i, hi, hw⟩ := eq_encode_fixed hrsv hop hsym
    exact ⟨i, hi, decode_eq_instr_iff.mpr hw⟩
  · exact decode_eq_instr_iff.mp hdec ▸ matchingRows_encode i
  · obtain ⟨i, rfl⟩ := exists_eq_encode hlegal
    rw [decode_encode] at hill
    cases hill

/-! ### Illegal words and example words (R75, R80) -/

/-- Settles O4: the write is accepted as any CMD write, and the turn raises ILLEGAL. -/
theorem illegalWordCompletes : Obligations.IllegalWordCompletes := by
  intro s w hidle hfields
  have hnot : ¬ legalWord w = true := by
    rw [legalWord_iff]
    rintro ⟨hrsv, hop, hsym⟩
    obtain hop' | hrsv' | ⟨hsym', hop'⟩ := hfields
    · omega
    · exact hrsv' hrsv
    · exact hsym.elim hsym' (by omega)
  obtain ⟨why, hill⟩ := decode_illegal hnot
  obtain ⟨haccept, -, -⟩ := cmdWriteAcceptedWhenIdle s w
  exact ⟨haccept hidle, blockTurn_illegal rfl hill⟩

/-- Settles O3: the words with a symbol are OP and SYM in their places, and the examples are words of their commands. -/
theorem commandWords : Obligations.CommandWords :=
  ⟨rfl, rfl, rfl, rfl, rfl, rfl, commandWord_eq_or 0x06, commandWord_eq_or 0x07,
    decode_encode (.rdcode 0x61), decode_encode (.rdfreq 0x62)⟩

end Sys2Proof.Machine

/-! PROOFS. The histogram: `count` is the occurrence count, its counters are exact for every text a command can read,
and what COUNT and RDFREQ answer (40_histogram.md). -/

namespace Sys2Proof.Machine

/-! ### `count` (R90) -/

theorem histAt_count (t : Text) (b : Byte) : histAt (count t) b = BitVec.ofNat 32 (t.count b) := by
  rw [count, histAt_foldl_bump, histAt_noCounts]
  exact BitVec.zero_add _

/-- Settles O8: a histogram is known by its counters, and occurrence counts do not depend on the order. -/
theorem countIsOccurrences : Obligations.CountIsOccurrences := by
  refine ⟨histAt_count, fun t u htu => hist_ext fun b => ?_⟩
  rw [histAt_count, histAt_count, htu.count_eq]

/-! ### Exact counters (R91) -/

/-- A counter is exact when the text's length fits in 32 bits. -/
theorem histAt_count_toNat {t : Text} (ht : t.length < 2 ^ 32) (b : Byte) : (histAt (count t) b).toNat = t.count b := by
  rw [histAt_count, BitVec.toNat_ofNat, Nat.mod_eq_of_lt (List.count_le_length.trans_lt ht)]

/-- Each position of a text is counted for exactly one byte of a list that has every byte of the text once. -/
theorem sum_count_of_nodup {t l : Text} (hl : l.Nodup) (ht : ∀ b ∈ t, b ∈ l) :
    (l.map fun b => t.count b).sum = t.length := by
  rw [← List.sum_toFinset _ hl]
  simpa only [Multiset.coe_count, Multiset.coe_card] using
    Multiset.sum_count_eq_card (m := (t : Multiset Byte)) fun b hb => List.mem_toFinset.mpr (ht b hb)

theorem total_count {t : Text} (ht : t.length < 2 ^ 32) : total (count t) = t.length := by
  rw [total_eq_sum, List.map_congr_left fun b _ => histAt_count_toNat ht b,
    sum_count_of_nodup allBytes_nodup fun b _ => mem_allBytes b]

theorem len_le_memBytes {s : State} (h : srcInRange s) : s.len.toNat ≤ s.cfg.memBytes := by
  obtain hlen | hend := h
  · simp [hlen]
  · omega

theorem memBytes_le_of_wf {c : Config} (h : c.wf = true) : c.memBytes ≤ 2 ^ 24 := by
  simp only [Config.wf, Bool.and_eq_true, decide_eq_true_eq] at h
  obtain ⟨⟨⟨-, hmax⟩, -⟩, -⟩ := h
  exact hmax

/-- Settles O9: LEN is a 32-bit word, so every counter is exact, and the buffer's size bounds LEN. -/
theorem countersNeverWrap : Obligations.CountersNeverWrap := by
  intro s hcfg hsrc
  have hlen := inputText_length s
  have hmem := len_le_memBytes hsrc
  have hmax := memBytes_le_of_wf hcfg
  have hfits : (inputText s).length < 2 ^ 32 := hlen ▸ s.len.isLt
  refine ⟨hlen, hmem, hmax, fun b => ?_, total_count hfits, fun hempty => ?_⟩
  · have hcount : (inputText s).count b ≤ (inputText s).length := List.count_le_length
    rw [histAt_count_toNat hfits]
    exact ⟨rfl, by omega⟩
  · rw [hempty]
    exact histAt_noCounts

/-! ### COUNT (R92) -/

/-- The occurrences in a region, counted over its addresses. -/
theorem count_readText (s : State) (a n : Nat) (b : Byte) :
    (readText s a n).count b = (List.range n).countP fun i => decide (s.readByte (a + i) = b) := by
  rw [readText, List.count_eq_countP, List.countP_map]
  rfl

/-- Settles O10: the two branches of COUNT; the new counters are those of the input text. -/
theorem countResult : Obligations.CountResult := by
  intro s
  refine ⟨fun hsrc => ⟨_, execCount_in hsrc, fun b => ?_, ?_, rfl, rfl⟩, execCount_out⟩
  · rw [complete_hist, histAt_count, inputText, count_readText]
  · rw [complete_result, complete_hist, nsym_eq_length]

/-! ### RDFREQ (R94) -/

theorem histAt_eq_getD (h : Hist) (b : Byte) : histAt h b = h.toList.getD b.toNat 0 := by
  rw [List.getD_eq_getElem _ _ (by simpa using b.isLt), Vector.getElem_toList, histAt]

theorem exec_rdfreq (b : Byte) (s : State) : exec (.rdfreq b) s = .next (complete s (histAt s.hist b)) := rfl

/-- Settles O11: RDFREQ answers the counter, and power-on reset and RESET both leave all-zero counters. -/
theorem rdfreqResult : Obligations.RdfreqResult := by
  refine ⟨fun b s => ?_, fun b c => ?_, fun b s t u hreset hread => ?_⟩
  · rw [exec_rdfreq, histAt_eq_getD]
    rfl
  · rw [exec_rdfreq, reset_hist, histAt_noCounts]
    rfl
  · cases hreset
    cases hread
    exact histAt_noCounts b

end Sys2Proof.Machine

/-! PROOFS. The tree builder: the comparator is a strict total order (41_tree_builder.md R112), the leaves that `build`
starts from (R113), and the order of its merges, without a bound on the weights (R115, R118). -/

namespace Sys2Proof.Machine

/-! ### The comparator and extraction (R112) -/

theorem prioLt_trans {p q r : Prio} (hpq : prioLt p q = true) (hqr : prioLt q r = true) : prioLt p r = true := by
  rw [prioLt_iff] at *
  omega

theorem prioLt_total {p q : Prio} (h : p.index ≠ q.index) : prioLt p q = true ∨ prioLt q p = true := by
  simp only [prioLt_iff]
  omega

theorem prio_total (c : Config) (arena : List Node) {i j : Nat} (h : i ≠ j) :
    prioLt (prio c arena i) (prio c arena j) = true ∨ prioLt (prio c arena j) (prio c arena i) = true :=
  prioLt_total h

theorem prioLt_prio_iff (c : Config) (arena : List Node) (i j : Nat) :
    prioLt (prio c arena i) (prio c arena j) = true ↔
      (nodeWeight arena i).toNat < (nodeWeight arena j).toNat ∨
      (nodeWeight arena i = nodeWeight arena j ∧ (tkey c arena i < tkey c arena j ∨
        (tkey c arena i = tkey c arena j ∧ i < j))) := by
  rw [prioLt_iff]
  simp only [prio, BitVec.toNat_inj]

/-- No candidate comes before the one `leastOf` picks. -/
theorem leastOf_le (c : Config) (arena : List Node) (q : List Nat) (i : Nat) :
    ∀ j ∈ i :: q, j ≠ leastOf c arena i q → prioLt (prio c arena (leastOf c arena i q)) (prio c arena j) = true := by
  induction q generalizing i with
  | nil => intro j hj hne; exact absurd (List.mem_singleton.mp hj) hne
  | cons k q ih =>
    rw [leastOf]
    split
    · next hki =>
      have before : prioLt (prio c arena (leastOf c arena k q)) (prio c arena i) = true := by
        by_cases hk : k = leastOf c arena k q
        · exact hk ▸ hki
        · exact prioLt_trans (ih k k List.mem_cons_self hk) hki
      intro j hj hne
      obtain rfl | hj := List.mem_cons.mp hj
      · exact before
      · exact ih k j hj hne
    · next hki =>
      intro j hj hne
      have hj : j = k ∨ j ∈ i :: q := by
        simp only [List.mem_cons] at hj ⊢
        tauto
      obtain rfl | hj := hj
      · by_cases hij : i = j
        · exact ih i j (hij ▸ List.mem_cons_self) hne
        have first := (prio_total c arena hij).resolve_right hki
        by_cases hi : i = leastOf c arena i q
        · exact hi ▸ first
        · exact prioLt_trans (ih i i List.mem_cons_self hi) first
      · exact ih i j hj hne

/-- The node that extraction takes comes before every other one of the collection. -/
theorem extractLeast_le {c : Config} {arena : List Node} {q q' : List Nat} {m j : Nat}
    (h : extractLeast c arena q = some (m, q')) (hj : j ∈ q) (hne : j ≠ m) :
    prioLt (prio c arena m) (prio c arena j) = true := by
  cases q with
  | nil => cases hj
  | cons i q => cases h; exact leastOf_le c arena q i j hj hne

theorem extractLeast_of_ne_nil (c : Config) (arena : List Node) {q : List Nat} (h : q ≠ []) :
    ∃ m, extractLeast c arena q = some (m, q.erase m) := by
  cases q with
  | nil => exact absurd rfl h
  | cons i q => exact ⟨_, rfl⟩

/-- Settles O12: the order is lexicographic, its last component is the index, and extraction keeps the least so far. -/
theorem priorityIsStrictTotalOrder : Obligations.PriorityIsStrictTotalOrder := by
  intro c arena
  refine ⟨prioLt_prio_iff c arena, fun i => prioLt_irrefl _, fun i j k => prioLt_trans, fun i j => prio_total c arena,
    fun q _ hq => ?_⟩
  obtain ⟨m, hm⟩ := extractLeast_of_ne_nil c arena hq
  exact ⟨m, hm, (extractLeast_some hm).1, fun j => extractLeast_le hm⟩

/-! ### The leaves (R113) -/

/-- Bytes in strictly ascending `symkey` order are pairwise distinct. -/
theorem nodup_of_ascending {o : SymOrder} {bs : List Byte} (h : bs.Pairwise fun a b => symkey o a < symkey o b) :
    bs.Nodup :=
  h.imp fun hab he => absurd (he ▸ hab) (lt_irrefl _)

/-- The present bytes are known by their order and their members. -/
theorem presentBytes_eq {o : SymOrder} {h : Hist} {bs : List Byte}
    (hasc : bs.Pairwise fun a b => symkey o a < symkey o b) (hmem : ∀ b, b ∈ bs ↔ histAt h b ≠ 0) : presentBytes o h = bs := by
  have hperm : (presentBytes o h).Perm bs :=
    (List.perm_ext_iff_of_nodup (nodup_of_ascending (presentBytes_ascending o h)) (nodup_of_ascending hasc)).mpr
      fun b => by rw [mem_presentBytes, hmem]
  exact hperm.eq_of_pairwise (fun a b _ _ hab hba => absurd hab (lt_asymm hba)) (presentBytes_ascending o h) hasc

/-! ### What every merge keeps, whatever the weights (R115) -/

/-- `build` answers the arena where the merge loop ends, so what every merge keeps holds of it, and one node without a
parent is left, the root. -/
theorem build_induct {c : Config} {h : Hist} {t : HeldTree} (hb : build c h = some t) {P : List Node → List Nat → Prop}
    (merge : ∀ arena q a b, P arena q → a ∈ q → b ∈ q.erase a →
      extractLeast c arena q = some (a, q.erase a) →
      extractLeast c arena (q.erase a) = some (b, (q.erase a).erase b) →
      P (arena ++ [.internal (nodeWeight arena a + nodeWeight arena b) a b])
        ((q.erase a).erase b ++ [arena.length]))
    (start : P (leavesOf c.symOrder h) (List.range (presentBytes c.symOrder h).length))
    (newest : ∀ arena q, P arena q → arena.length - 1 ∈ q) :
    P t.arena [t.root] ∧ t.root = t.arena.length - 1 := by
  obtain ⟨-, arena, q, rfl, hloop⟩ := build_some hb
  have finish := mergeLoop_induct c merge (presentBytes c.symOrder h).length start
  have remaining := mergeLoop_remaining c (presentBytes c.symOrder h).length (leavesOf c.symOrder h)
    (List.range (presentBytes c.symOrder h).length) (by simp)
  rw [hloop] at finish remaining
  have last := newest arena q finish
  obtain ⟨r, rfl⟩ : ∃ r, q = [r] := by
    have := List.length_pos_of_mem last
    exact List.length_eq_one_iff.mp (Nat.le_antisymm (Nat.le_of_lt_succ remaining) this)
  exact ⟨finish, (List.mem_singleton.mp last).symm⟩

/-- Node `j` exists when node `k` is made, and has no parent yet. -/
def Waiting (arena : List Node) (k j : Nat) : Prop :=
  j < k ∧ ∀ (m : Nat) (v : Word) (x y : Nat), m < k → arena[m]? = some (.internal v x y) → j ≠ x ∧ j ≠ y

/-- Node `k` is internal and took the two least of the nodes that waited when it was made. -/
structure TookLeast (c : Config) (arena : List Node) (k : Nat) (w : Word) (l r : Nat) : Prop where
  node      : arena[k]? = some (.internal w l r)
  left_lt   : l < k
  right_lt  : r < k
  ne        : l ≠ r
  weight    : w = nodeWeight arena l + nodeWeight arena r
  leftFirst : prioLt (prio c arena l) (prio c arena r) = true
  rightNext : ∀ j, Waiting arena k j → j ≠ l → j ≠ r → prioLt (prio c arena r) (prio c arena j) = true

/-- A later merge changes nothing of an earlier one. -/
theorem TookLeast.append {c : Config} {arena : List Node} {k : Nat} {w : Word} {l r : Nat}
    (h : TookLeast c arena k w l r) (n : Node) : TookLeast c (arena ++ [n]) k w l r := by
  have hk : k < arena.length := (List.getElem?_eq_some_iff.mp h.node).1
  have hl := h.left_lt.trans hk
  have hr := h.right_lt.trans hk
  refine { node := ?_, left_lt := h.left_lt, right_lt := h.right_lt, ne := h.ne, weight := ?_, leftFirst := ?_,
           rightNext := ?_ }
  · rw [List.getElem?_append_left hk, h.node]
  · rw [nodeWeight_append _ _ _ hl, nodeWeight_append _ _ _ hr, h.weight]
  · rw [prio_append _ _ _ _ hl, prio_append _ _ _ _ hr, h.leftFirst]
  · intro j ⟨hj, hfree⟩ hjl hjr
    rw [prio_append _ _ _ _ hr, prio_append _ _ _ _ (hj.trans hk)]
    refine h.rightNext j ⟨hj, fun m v x y hm hnode => hfree m v x y hm ?_⟩ hjl hjr
    rw [List.getElem?_append_left (hm.trans hk), hnode]

theorem mem_childRefs {arena : List Node} {i : Nat} :
    i ∈ childRefs arena ↔ ∃ (k : Nat) (w : Word) (l r : Nat), arena[k]? = some (.internal w l r) ∧ (i = l ∨ i = r) := by
  rw [childRefs, List.mem_flatMap]
  constructor
  · rintro ⟨n, hn, hi⟩
    obtain ⟨k, hk⟩ := List.mem_iff_getElem?.mp hn
    cases n with
    | leaf w b => cases hi
    | internal w l r => exact ⟨k, w, l, r, hk, by simpa using hi⟩
  · rintro ⟨k, w, l, r, hk, hi⟩
    exact ⟨_, List.mem_of_getElem? hk, by simpa using hi⟩

/-- What the merge loop keeps of the arena and the collection `q`, which began with `leaves`; sums may overflow. -/
structure MergeOrder (c : Config) (leaves : List Node) (arena : List Node) (q : List Nat) : Prop where
  /-- The arena begins with the leaves. -/
  leavesFirst : leaves <+: arena
  /-- Every later node is a merge. -/
  merges      : ∀ k, leaves.length ≤ k → k < arena.length → ∃ w l r, TookLeast c arena k w l r
  /-- A merge adds a node and takes one out of the collection. -/
  size        : arena.length + q.length = 2 * leaves.length
  /-- Every node has one parent or stands once in the collection. -/
  refs        : (childRefs arena ++ q).Perm (List.range arena.length)
  /-- The newest node has no parent yet. -/
  newest      : arena.length - 1 ∈ q

section
variable {c : Config} {leaves arena : List Node} {q : List Nat}

theorem MergeOrder.lt_length (h : MergeOrder c leaves arena q) {i : Nat} (hi : i ∈ q) : i < arena.length :=
  List.mem_range.mp (h.refs.mem_iff.mp (List.mem_append_right _ hi))

theorem MergeOrder.nodup (h : MergeOrder c leaves arena q) : (childRefs arena ++ q).Nodup :=
  h.refs.nodup_iff.mpr List.nodup_range

/-- A node that waits stands in the collection. -/
theorem MergeOrder.mem_of_waiting (h : MergeOrder c leaves arena q) {j : Nat} (hj : Waiting arena arena.length j) :
    j ∈ q := by
  obtain ⟨hlt, hfree⟩ := hj
  obtain hchild | hq := List.mem_append.mp (h.refs.mem_iff.mpr (List.mem_range.mpr hlt))
  · obtain ⟨m, v, x, y, hm, hxy⟩ := mem_childRefs.mp hchild
    have := hfree m v x y (List.getElem?_eq_some_iff.mp hm).1 hm
    tauto
  · exact hq

/-- The new node of a merge took the two least. -/
theorem MergeOrder.tookLeast (h : MergeOrder c leaves arena q) {a b : Nat} (ha : a ∈ q) (hb : b ∈ q.erase a)
    (hleast : extractLeast c arena q = some (a, q.erase a))
    (hnext : extractLeast c arena (q.erase a) = some (b, (q.erase a).erase b)) :
    TookLeast c (arena ++ [.internal (nodeWeight arena a + nodeWeight arena b) a b]) arena.length
      (nodeWeight arena a + nodeWeight arena b) a b := by
  have hbq := List.mem_of_mem_erase hb
  have ha' := h.lt_length ha
  have hb' := h.lt_length hbq
  have hne : b ≠ a := by
    rintro rfl
    exact h.nodup.of_append_right.not_mem_erase hb
  refine { node := List.getElem?_concat_length, left_lt := ha', right_lt := hb', ne := hne.symm, weight := ?_,
           leftFirst := ?_, rightNext := ?_ }
  · rw [nodeWeight_append _ _ _ ha', nodeWeight_append _ _ _ hb']
  · rw [prio_append _ _ _ _ ha', prio_append _ _ _ _ hb']
    exact extractLeast_le hleast hbq hne
  · intro j ⟨hj, hfree⟩ hja hjb
    rw [prio_append _ _ _ _ hb', prio_append _ _ _ _ hj]
    have hjq : j ∈ q := h.mem_of_waiting ⟨hj, fun m v x y hm hnode => hfree m v x y hm (by
      rw [List.getElem?_append_left hm, hnode])⟩
    exact extractLeast_le hnext ((List.mem_erase_of_ne hja).mpr hjq) hjb

theorem MergeOrder.merge (h : MergeOrder c leaves arena q) {a b : Nat} (ha : a ∈ q) (hb : b ∈ q.erase a)
    (hleast : extractLeast c arena q = some (a, q.erase a))
    (hnext : extractLeast c arena (q.erase a) = some (b, (q.erase a).erase b)) :
    MergeOrder c leaves (arena ++ [.internal (nodeWeight arena a + nodeWeight arena b) a b])
      ((q.erase a).erase b ++ [arena.length]) where
  leavesFirst := h.leavesFirst.trans (List.prefix_append _ _)
  merges k hk hlt := by
    rw [List.length_append, List.length_singleton] at hlt
    obtain hold | rfl := Nat.lt_succ_iff_lt_or_eq.mp hlt
    · obtain ⟨w, l, r, htook⟩ := h.merges k hk hold
      exact ⟨w, l, r, htook.append _⟩
    · exact ⟨_, a, b, h.tookLeast ha hb hleast hnext⟩
  size := by
    have := merged_length arena.length ha hb
    have := h.size
    rw [List.length_append, List.length_singleton]
    omega
  refs := by
    have taken : ([a, b] ++ (q.erase a).erase b).Perm q :=
      ((List.perm_cons_erase ha).trans ((List.perm_cons_erase hb).cons a)).symm
    rw [childRefs_append, List.length_append, List.length_singleton, List.range_succ, ← List.append_assoc]
    refine List.Perm.append_right _ ?_
    rw [List.append_assoc]
    exact (taken.append_left _).trans h.refs
  newest := by simp

end

theorem MergeOrder.init (c : Config) (w : Byte → Word) {bs : List Byte} (hne : bs ≠ []) :
    MergeOrder c (bs.map fun b => .leaf (w b) b) (bs.map fun b => .leaf (w b) b) (List.range bs.length) where
  leavesFirst := List.prefix_refl _
  merges k hk hlt := absurd hlt (Nat.not_lt.mpr hk)
  size := by simp [Nat.two_mul]
  refs := by simp
  newest := by simp [List.length_pos_iff.mpr hne]

/-! ### The shape of a built tree -/

/-- The arena is the leaves and then the merges; every node but the root has one parent, and the root is the last. -/
theorem build_order {c : Config} {h : Hist} {t : HeldTree} (hb : build c h = some t) :
    MergeOrder c (leavesOf c.symOrder h) t.arena [t.root] ∧ t.root = t.arena.length - 1 := by
  refine build_induct hb (fun _ _ _ _ h => h.merge) ?_ fun _ _ h => h.newest
  rw [leavesOf_eq]
  exact .init c _ (build_some hb).1

section
variable {c : Config} {h : Hist} {t : HeldTree}

theorem leavesOf_length (o : SymOrder) (h : Hist) : (leavesOf o h).length = (presentBytes o h).length := by
  rw [leavesOf_eq, List.length_map]

theorem build_length (hb : build c h = some t) : t.arena.length + 1 = 2 * (presentBytes c.symOrder h).length := by
  have := (build_order hb).1.size
  rwa [leavesOf_length] at this

theorem build_root (hb : build c h = some t) : t.root + 1 = t.arena.length := by
  have := build_length hb
  have := (build_order hb).2
  omega

/-- Below the number of leaves a node is the leaf of its present byte. -/
theorem build_leaf (hb : build c h = some t) {i : Nat} (hi : i < (presentBytes c.symOrder h).length) :
    t.arena[i]? = some (.leaf (histAt h (presentBytes c.symOrder h)[i]) (presentBytes c.symOrder h)[i]) := by
  have hprefix := List.prefix_iff_getElem?.mp (build_order hb).1.leavesFirst i (by rwa [leavesOf_length])
  simpa [leavesOf_eq] using hprefix

/-- From the number of leaves on a node is a merge. -/
theorem build_merge (hb : build c h = some t) {k : Nat} (hk : (presentBytes c.symOrder h).length ≤ k)
    (hlt : k < t.arena.length) : ∃ w l r, TookLeast c t.arena k w l r :=
  (build_order hb).1.merges k (by rwa [leavesOf_length]) hlt

/-- A leaf stands at the place of its byte among the present bytes. -/
theorem build_leaf_inv (hb : build c h = some t) {i : Nat} {w : Word} {b : Byte}
    (hi : t.arena[i]? = some (.leaf w b)) : (presentBytes c.symOrder h)[i]? = some b := by
  by_cases hlt : i < (presentBytes c.symOrder h).length
  · rw [build_leaf hb hlt] at hi
    cases hi
    exact List.getElem?_eq_getElem hlt
  · obtain ⟨v, l, r, htook⟩ := build_merge hb (Nat.not_lt.mp hlt) (List.getElem?_eq_some_iff.mp hi).1
    rw [htook.node] at hi
    cases hi

/-- An internal node comes after the leaves and is a merge. -/
theorem build_internal (hb : build c h = some t) {k : Nat} {w : Word} {l r : Nat}
    (hk : t.arena[k]? = some (.internal w l r)) :
    (presentBytes c.symOrder h).length ≤ k ∧ TookLeast c t.arena k w l r := by
  have hlt := (List.getElem?_eq_some_iff.mp hk).1
  by_cases hn : (presentBytes c.symOrder h).length ≤ k
  · obtain ⟨w', l', r', htook⟩ := build_merge hb hn hlt
    have := htook.node.symm.trans hk
    cases this
    exact ⟨hn, htook⟩
  · rw [build_leaf hb (Nat.not_le.mp hn)] at hk
    cases hk

theorem build_leafSyms (hb : build c h = some t) : leafSyms t.arena = presentBytes c.symOrder h := by
  obtain ⟨later, harena⟩ := (build_order hb).1.leavesFirst
  have hlater : leafSyms later = [] := by
    refine List.filterMap_eq_nil_iff.mpr fun n hn => ?_
    obtain ⟨i, hi⟩ := List.mem_iff_getElem?.mp hn
    have hplace : t.arena[(presentBytes c.symOrder h).length + i]? = some n := by
      rw [← harena, List.getElem?_append_right (by rw [leavesOf_length]; omega), leavesOf_length,
        Nat.add_sub_cancel_left, hi]
    obtain ⟨w, l, r, htook⟩ := build_merge hb (Nat.le_add_right _ i) (List.getElem?_eq_some_iff.mp hplace).1
    have := htook.node.symm.trans hplace
    cases this
    rfl
  rw [← harena, leafSyms_append, hlater, leavesOf_eq, leafSyms_leaves, List.append_nil]

end

/-- Settles O13: the leaves are the present bytes with their counters, and the merge loop only appends. -/
theorem buildSeedsLeavesInOrder : Obligations.BuildSeedsLeavesInOrder := by
  intro c h
  refine ⟨build_eq_none, fun t hb => ?_⟩
  rw [build_leafSyms hb]
  refine ⟨fun b => mem_presentBytes, presentBytes_ascending _ _, ?_⟩
  have hprefix := (build_order hb).1.leavesFirst
  rw [List.prefix_iff_eq_take, leavesOf_length] at hprefix
  rw [← hprefix, leavesOf_eq]

/-- Settles O15: every internal node is a merge that took the two least. -/
theorem mergeTakesTwoLeast : Obligations.MergeTakesTwoLeast := by
  intro c h t hb
  refine ⟨build_root hb, fun k w l r hk => ?_⟩
  obtain ⟨-, htook⟩ := build_internal hb hk
  exact ⟨htook.left_lt, htook.right_lt, htook.ne, htook.weight, htook.leftFirst,
    fun j hj hjl hjr hfree => htook.rightNext j ⟨hj, hfree⟩ hjl hjr⟩

/-! ### Ties (R118) -/

theorem tkey_leaf {c : Config} {arena : List Node} {i : Nat} {w : Word} {b : Byte}
    (h : arena[i]? = some (.leaf w b)) : tkey c arena i = symkey c.symOrder b := by
  rw [tkey, h]

theorem tkey_internal {c : Config} {arena : List Node} {i : Nat} {w : Word} {l r : Nat}
    (h : arena[i]? = some (.internal w l r)) : tkey c arena i = c.internalKey := by
  rw [tkey, h]

/-- Of two nodes of equal weight the earlier has the lesser key, or the lesser index when the keys are equal. -/
theorem key_of_equal_weight {c : Config} {arena : List Node} {i j : Nat}
    (h : prioLt (prio c arena i) (prio c arena j) = true) (hw : nodeWeight arena i = nodeWeight arena j) :
    tkey c arena i < tkey c arena j ∨ (tkey c arena i = tkey c arena j ∧ i < j) := by
  obtain hlt | ⟨-, hkey⟩ := (prioLt_prio_iff c arena i j).mp h
  · exact absurd hlt (by simp [hw])
  · exact hkey

theorem weight_le_of_prioLt {c : Config} {arena : List Node} {i j : Nat}
    (h : prioLt (prio c arena i) (prio c arena j) = true) :
    (nodeWeight arena i).toNat ≤ (nodeWeight arena j).toNat := by
  obtain hlt | ⟨heq, -⟩ := (prioLt_prio_iff c arena i j).mp h
  · exact hlt.le
  · rw [heq]

theorem presentBytes_key_lt {o : SymOrder} {h : Hist} {i j : Nat} {a b : Byte} (hi : (presentBytes o h)[i]? = some a)
    (hj : (presentBytes o h)[j]? = some b) (hij : i < j) : symkey o a < symkey o b := by
  obtain ⟨hi', rfl⟩ := List.getElem?_eq_some_iff.mp hi
  obtain ⟨hj', rfl⟩ := List.getElem?_eq_some_iff.mp hj
  exact List.pairwise_iff_getElem.mp (presentBytes_ascending o h) i j hi' hj' hij

/-- Settles O16: on equal weights the keys decide, and then the indices, which follow the leaves' keys and put every
leaf before every internal node. -/
theorem tieOrderOfChildren : Obligations.TieOrderOfChildren := by
  intro c h t hb k w l r hk
  have first := (build_internal hb hk).2.leftFirst
  refine ⟨first, weight_le_of_prioLt first, fun hw => ?_⟩
  have keys := key_of_equal_weight first hw
  refine ⟨fun v a u b hl hr => ?_, fun v a u x y hl hr => ?_, fun v x y u b hl hr => ?_, fun v x y u x' y' hl hr => ?_⟩
  · rw [tkey_leaf hl, tkey_leaf hr] at keys
    obtain hlt | ⟨-, hlr⟩ := keys
    · exact hlt
    · exact presentBytes_key_lt (build_leaf_inv hb hl) (build_leaf_inv hb hr) hlr
  · rw [tkey_leaf hl, tkey_internal hr] at keys
    omega
  · rw [tkey_internal hl, tkey_leaf hr] at keys
    have hn := (build_internal hb hl).1
    have hr' := (List.getElem?_eq_some_iff.mp (build_leaf_inv hb hr)).1
    omega
  · rw [tkey_internal hl, tkey_internal hr] at keys
    omega

end Sys2Proof.Machine

/-! PROOFS. The code of a built tree: one path leads to each leaf (41_tree_builder.md R117), no codeword begins
another (R130), the Kraft sum (R131), the lengths (R132), one symbol (R114) and the worked trace (R134). -/

namespace Sys2Proof.Machine

/-! ### Paths (R117) -/

theorem followPath_cons {arena : List Node} {i : Nat} {w : Word} {l r : Nat} (h : arena[i]? = some (.internal w l r))
    (b : Bool) (p : Codeword) : followPath arena i (b :: p) = followPath arena (if b then r else l) p := by
  rw [followPath, h]

/-- A step of a path starts at an internal node. -/
theorem followPath_cons_inv {arena : List Node} {i j : Nat} {b : Bool} {p : Codeword}
    (h : followPath arena i (b :: p) = some j) : ∃ w l r, arena[i]? = some (.internal w l r) ∧
      followPath arena (if b then r else l) p = some j := by
  rw [followPath] at h
  split at h
  · next w l r hi => exact ⟨w, l, r, hi, h⟩
  · cases h

/-- The last step of a path leads from an internal node to a child of it. -/
theorem followPath_concat_inv {arena : List Node} {i j : Nat} {b : Bool} {p : Codeword}
    (h : followPath arena i (p ++ [b]) = some j) : ∃ k w l r, followPath arena i p = some k ∧
      arena[k]? = some (.internal w l r) ∧ j = if b then r else l := by
  rw [followPath_append, Option.bind_eq_some_iff] at h
  obtain ⟨k, hk, hlast⟩ := h
  obtain ⟨w, l, r, hnode, hend⟩ := followPath_cons_inv hlast
  exact ⟨k, w, l, r, hk, hnode, (Option.some.inj hend).symm⟩

/-- No path leaves a leaf. -/
theorem followPath_leaf {arena : List Node} {i j : Nat} {w : Word} {b : Byte} {p : Codeword}
    (hleaf : arena[i]? = some (.leaf w b)) (h : followPath arena i p = some j) : p = [] := by
  cases p with
  | nil => rfl
  | cons x p =>
    obtain ⟨v, l, r, hi, -⟩ := followPath_cons_inv h
    rw [hleaf] at hi
    cases hi

theorem child_mem (b : Bool) (l r : Nat) : (if b then r else l) ∈ [l, r] := by cases b <;> simp

/-- Two internal nodes of an arena that names each child once share no child. -/
theorem children_disjoint {arena : List Node} (hnodup : (childRefs arena).Nodup) {k k' : Nat} {w w' : Word}
    {l r l' r' : Nat} (hk : arena[k]? = some (.internal w l r)) (hk' : arena[k']? = some (.internal w' l' r'))
    (hlt : k < k') : List.Disjoint [l, r] [l', r'] := by
  obtain ⟨hk, hnode⟩ := List.getElem?_eq_some_iff.mp hk
  obtain ⟨hk', hnode'⟩ := List.getElem?_eq_some_iff.mp hk'
  have := List.pairwise_iff_getElem.mp (List.nodup_flatMap.mp hnodup).2 k k' hk hk' hlt
  rwa [Function.onFun, hnode, hnode'] at this

/-- A node that is named once as a child has one parent, on one side. -/
theorem parent_unique {arena : List Node} (hnodup : (childRefs arena).Nodup) {k k' : Nat} {w w' : Word}
    {l r l' r' : Nat} {b b' : Bool} (hk : arena[k]? = some (.internal w l r)) (hk' : arena[k']? = some (.internal w' l' r'))
    (h : (if b then r else l) = if b' then r' else l') : k = k' ∧ b = b' := by
  obtain hlt | rfl | hlt := Nat.lt_trichotomy k k'
  · exact (children_disjoint hnodup hk hk' hlt (child_mem b l r) (h ▸ child_mem b' l' r')).elim
  · rw [hk] at hk'
    cases hk'
    have hlr : l ≠ r := by
      simpa using (List.nodup_flatMap.mp hnodup).1 _ (List.mem_of_getElem? hk)
    refine ⟨rfl, ?_⟩
    cases b <;> cases b' <;> simp [hlr, hlr.symm] at h ⊢
  · exact (children_disjoint hnodup hk' hk hlt (child_mem b' l' r') (h ▸ child_mem b l r)).elim

/-- Where every node is the child of one node and the root of none, one path leads to each node. -/
theorem followPath_unique {arena : List Node} {root : Nat} (hnodup : (childRefs arena ++ [root]).Nodup) {p q : Codeword}
    {i : Nat} (hp : followPath arena root p = some i) (hq : followPath arena root q = some i) : p = q := by
  have hroot {k : Nat} {w : Word} {l r : Nat} {b : Bool} (hk : arena[k]? = some (.internal w l r)) :
      root ≠ if b then r else l := by
    rintro rfl
    refine (List.disjoint_of_nodup_append hnodup) (mem_childRefs.mpr ⟨k, w, l, r, hk, ?_⟩) (List.mem_singleton_self _)
    cases b <;> simp
  induction p using List.reverseRecOn generalizing q i with
  | nil =>
    obtain rfl := Option.some.inj hp
    obtain rfl | ⟨q, b, rfl⟩ := List.eq_nil_or_concat' q
    · rfl
    · obtain ⟨k, w, l, r, -, hk, hend⟩ := followPath_concat_inv hq
      exact absurd hend (hroot hk)
  | append_singleton p a ih =>
    obtain ⟨k, w, l, r, hpk, hk, rfl⟩ := followPath_concat_inv hp
    obtain rfl | ⟨q, b, rfl⟩ := List.eq_nil_or_concat' q
    · exact absurd (Option.some.inj hq) (hroot hk)
    · obtain ⟨k', w', l', r', hqk, hk', hend⟩ := followPath_concat_inv hq
      obtain ⟨rfl, rfl⟩ := parent_unique hnodup.of_append_left hk hk' hend
      rw [ih hpk hqk]

/-! ### The paths of a built tree -/

section
variable {c : Config} {h : Hist} {t : HeldTree}

theorem build_nodup (hb : build c h = some t) : (childRefs t.arena ++ [t.root]).Nodup := (build_order hb).1.nodup

/-- Both children of a node of a built tree were made before it. -/
theorem build_child_lt (hb : build c h = some t) {k : Nat} {w : Word} {l r : Nat}
    (hk : t.arena[k]? = some (.internal w l r)) (b : Bool) : (if b then r else l) < k := by
  obtain ⟨-, htook⟩ := build_internal hb hk
  cases b
  · exact htook.left_lt
  · exact htook.right_lt

/-- A path has at most one step for each internal node up to where it starts. -/
theorem followPath_length (hb : build c h = some t) {i j : Nat} {p : Codeword}
    (hp : followPath t.arena i p = some j) : p.length ≤ i + 1 - (presentBytes c.symOrder h).length := by
  induction p generalizing i with
  | nil => exact Nat.zero_le _
  | cons b p ih =>
    obtain ⟨w, l, r, hi, hrest⟩ := followPath_cons_inv hp
    have := ih hrest
    have := build_child_lt hb hi b
    have := (build_internal hb hi).1
    rw [List.length_cons]
    omega

/-- Every node of a built tree is reached from the root: a node other than the root has a parent, made after it. -/
theorem exists_path (hb : build c h = some t) {i : Nat} (hi : i < t.arena.length) :
    ∃ p, followPath t.arena t.root p = some i := by
  by_cases hroot : i = t.root
  · exact ⟨[], congrArg some hroot.symm⟩
  have hchild : i ∈ childRefs t.arena := by
    have := (build_order hb).1.refs.mem_iff.mpr (List.mem_range.mpr hi)
    simpa [hroot] using this
  obtain ⟨k, w, l, r, hk, hside⟩ := mem_childRefs.mp hchild
  have hlt := (List.getElem?_eq_some_iff.mp hk).1
  obtain ⟨b, hside⟩ : ∃ b : Bool, i = if b then r else l := by
    obtain rfl | rfl := hside
    · exact ⟨false, rfl⟩
    · exact ⟨true, rfl⟩
  have hik : i < k := hside ▸ build_child_lt hb hk b
  obtain ⟨p, hp⟩ := exists_path hb hlt
  refine ⟨p ++ [b], ?_⟩
  rw [followPath_append, hp, Option.bind_some, followPath_cons hk, followPath_nil, hside]
termination_by t.arena.length - i

/-- A leaf is known by its byte. -/
theorem build_leaf_index (hb : build c h = some t) {i j : Nat} {v w : Word} {b : Byte}
    (hi : t.arena[i]? = some (.leaf v b)) (hj : t.arena[j]? = some (.leaf w b)) : i = j := by
  have hi := build_leaf_inv hb hi
  exact (List.getElem?_inj (List.getElem?_eq_some_iff.mp hi).1 (nodup_of_ascending (presentBytes_ascending _ _))).mp
    (hi.trans (build_leaf_inv hb hj).symm)

/-- One path leads to the leaf of a byte. -/
theorem reaches_unique (hb : build c h = some t) {p q : Codeword} {b : Byte} (hp : t.Reaches p b)
    (hq : t.Reaches q b) : p = q := by
  obtain ⟨i, v, hpi, hi⟩ := hp
  obtain ⟨j, w, hqj, hj⟩ := hq
  obtain rfl := build_leaf_index hb hi hj
  exact followPath_unique (build_nodup hb) hpi hqj

/-- The leaf of every present byte is reached. -/
theorem exists_reaches (hb : build c h = some t) {b : Byte} (hmem : b ∈ presentBytes c.symOrder h) :
    ∃ p, t.Reaches p b := by
  obtain ⟨i, hi, rfl⟩ := List.mem_iff_getElem.mp hmem
  have hleaf := build_leaf hb hi
  obtain ⟨p, hp⟩ := exists_path hb (List.getElem?_eq_some_iff.mp hleaf).1
  exact ⟨p, i, _, hp, hleaf⟩

end

/-- A path to a leaf does not go on, so it begins no path to another leaf. -/
theorem HeldTree.Reaches.eq_of_prefix {t : HeldTree} {p q : Codeword} {a b : Byte} (hp : t.Reaches p a)
    (hq : t.Reaches q b) (h : p <+: q) : a = b := by
  obtain ⟨i, v, hpi, hi⟩ := hp
  obtain ⟨j, w, hqj, hj⟩ := hq
  obtain ⟨r, rfl⟩ := h
  rw [followPath_append, hpi, Option.bind_some] at hqj
  obtain rfl := followPath_leaf hi hqj
  obtain rfl := Option.some.inj hqj
  rw [hi] at hj
  cases hj
  rfl

/-! ### The walk and the code table (R117) -/

/-- A walk with a pass for every node below its start visits every leaf that a path leads to. -/
theorem walk_complete {c : Config} {h : Hist} {t : HeldTree} (hb : build c h = some t) {n i j : Nat} {w : Word}
    {b : Byte} {r : Codeword} (p : Codeword) (hn : i < n) (hr : followPath t.arena i r = some j)
    (hj : t.arena[j]? = some (.leaf w b)) : (b, p ++ r) ∈ walk t.arena n i p := by
  induction n generalizing i r p with
  | zero => cases hn
  | succ n ih =>
    cases r with
    | nil =>
      obtain rfl := Option.some.inj hr
      simp [walk, hj]
    | cons x r =>
      obtain ⟨v, l, r', hi, hrest⟩ := followPath_cons_inv hr
      have hlt := build_child_lt hb hi x
      have hvisit := ih (p ++ [x]) (by omega) hrest
      rw [List.append_assoc, List.singleton_append] at hvisit
      simp only [walk, hi]
      cases x
      · exact List.mem_append_left _ hvisit
      · exact List.mem_append_right _ hvisit

/-- The walk visits no leaf twice by the same path. -/
theorem walk_nodup (arena : List Node) (n i : Nat) (p : Codeword) : (walk arena n i p).Nodup := by
  induction n generalizing i p with
  | zero => exact List.nodup_nil
  | succ n ih =>
    rw [walk]
    split
    · exact List.nodup_singleton _
    · refine (ih _ _).append (ih _ _) fun v hl hr => ?_
      obtain ⟨ql, -, -, hql, -⟩ := walk_sound hl
      obtain ⟨qr, -, -, hqr, -⟩ := walk_sound hr
      simpa using hql.symm.trans hqr
    · exact List.nodup_nil

/-- A visited symbol has an entry. -/
theorem codeAt_foldl_codeSet_isSome {vs : List (Byte × Codeword)} {k : CodeTable} {b : Byte}
    (h : b ∈ vs.map Prod.fst ∨ (codeAt k b).isSome) :
    (codeAt (vs.foldl (fun c v => codeSet c v.1 v.2) k) b).isSome := by
  induction vs generalizing k with
  | nil => simpa using h
  | cons v vs ih =>
    refine ih ?_
    rw [codeAt_codeSet]
    rw [List.map_cons, List.mem_cons, or_assoc] at h
    obtain rfl | hvs | hk := h
    · exact .inr (by simp)
    · exact .inl hvs
    · right
      split
      · rfl
      · exact hk

theorem codes_leaf {arena : List Node} {root : Nat} {w : Word} {s : Byte} (h : arena[root]? = some (.leaf w s)) :
    codes arena root = codeSet noCodes s [false] := by
  rw [codes, h]

theorem codes_internal {arena : List Node} {root : Nat} {w : Word} {l r : Nat}
    (h : arena[root]? = some (.internal w l r)) : codes arena root = tableOf (walk arena arena.length root []) := by
  rw [codes, h]

theorem codeAt_codes_leaf {arena : List Node} {root : Nat} {w : Word} {s : Byte} (h : arena[root]? = some (.leaf w s))
    (b : Byte) : codeAt (codes arena root) b = if s = b then some [false] else none := by
  rw [codes_leaf h, codeAt_codeSet, codeAt_noCodes]

section
variable {c : Config} {h : Hist} {t : HeldTree}

theorem mem_walk_iff (hb : build c h = some t) {b : Byte} {p : Codeword} :
    (b, p) ∈ walk t.arena t.arena.length t.root [] ↔ t.Reaches p b := by
  constructor
  · intro hv
    obtain ⟨r, j, w, rfl, hj, hleaf⟩ := walk_sound hv
    exact ⟨j, w, hj, hleaf⟩
  · rintro ⟨j, w, hj, hleaf⟩
    have := build_root hb
    exact walk_complete hb [] (by omega) hj hleaf

theorem codeAt_codes_iff (hb : build c h = some t) {w : Word} {l r : Nat}
    (hroot : t.arena[t.root]? = some (.internal w l r)) {b : Byte} {p : Codeword} :
    codeAt (codes t.arena t.root) b = some p ↔ t.Reaches p b := by
  have sound {q : Codeword} (hq : codeAt (codes t.arena t.root) b = some q) : t.Reaches q b := by
    rw [codes_internal hroot, tableOf] at hq
    obtain hv | hnone := codeAt_foldl_codeSet hq
    · exact (mem_walk_iff hb).mp hv
    · rw [codeAt_noCodes] at hnone
      cases hnone
  refine ⟨sound, fun hp => ?_⟩
  have hsome : (codeAt (codes t.arena t.root) b).isSome := by
    rw [codes_internal hroot]
    exact codeAt_foldl_codeSet_isSome (.inl (List.mem_map_of_mem ((mem_walk_iff hb).mpr hp)))
  obtain ⟨q, hq⟩ := Option.isSome_iff_exists.mp hsome
  rw [hq, reaches_unique hb (sound hq) hp]

/-- With one leaf the root is that leaf; with more it is internal. -/
theorem build_root_internal (hb : build c h = some t) (hn : 2 ≤ (presentBytes c.symOrder h).length) :
    ∃ w l r, t.arena[t.root]? = some (.internal w l r) := by
  have := build_length hb
  have := build_root hb
  obtain ⟨w, l, r, htook⟩ := build_merge hb (k := t.root) (by omega) (by omega)
  exact ⟨w, l, r, htook.node⟩

theorem build_root_leaf (hb : build c h = some t) {s : Byte} (hone : presentBytes c.symOrder h = [s]) :
    t.arena[t.root]? = some (.leaf (histAt h s) s) := by
  have hlen := build_length hb
  have hroot := build_root hb
  have hleaf := build_leaf hb (i := 0) (by simp [hone])
  simp only [hone, List.length_singleton, List.getElem_cons_zero] at hlen hleaf
  rwa [show t.root = 0 by omega]

end

/-! ### Codewords (R117, R130, R132) -/

theorem build_root_cases {c : Config} {h : Hist} {t : HeldTree} (hb : build c h = some t) :
    (∃ w s, t.arena[t.root]? = some (.leaf w s)) ∨ ∃ w l r, t.arena[t.root]? = some (.internal w l r) := by
  have hlt : t.root < t.arena.length := by
    have := build_root hb
    omega
  rw [List.getElem?_eq_getElem hlt]
  cases t.arena[t.root] with
  | leaf w s => exact .inl ⟨w, s, rfl⟩
  | internal w l r => exact .inr ⟨w, l, r, rfl⟩

/-- In a tree with an internal root every present byte has a codeword, which is not empty. -/
theorem exists_codeword {c : Config} {h : Hist} {t : HeldTree} (hb : build c h = some t) {w : Word} {l r : Nat}
    (hroot : t.arena[t.root]? = some (.internal w l r)) {b : Byte} (hmem : b ∈ presentBytes c.symOrder h) :
    ∃ p, codeAt (codes t.arena t.root) b = some p ∧ p ≠ [] := by
  obtain ⟨p, hp⟩ := exists_reaches hb hmem
  refine ⟨p, (codeAt_codes_iff hb hroot).mpr hp, ?_⟩
  rintro rfl
  obtain ⟨i, v, hi, hleaf⟩ := hp
  obtain rfl := Option.some.inj hi
  rw [hroot] at hleaf
  cases hleaf

/-- The one codeword of a tree whose root is a leaf (R114). -/
theorem codeAt_codes_leaf_iff {arena : List Node} {root : Nat} {w : Word} {s : Byte}
    (h : arena[root]? = some (.leaf w s)) {b : Byte} {p : Codeword} :
    codeAt (codes arena root) b = some p ↔ (b, p) = (s, [false]) := by
  rw [codeAt_codes_leaf h]
  split <;> simp [*, eq_comm]

/-- Settles O18: an entry of the table is a visit of the walk, and the walk visits each leaf by the one path to it. -/
theorem codewordIsPathToLeaf : Obligations.CodewordIsPathToLeaf := by
  intro c h t hb
  refine ⟨fun w s hroot => ⟨?_, fun b hne => ?_⟩,
    fun w l r hroot => ⟨fun b p => codeAt_codes_iff hb hroot, fun b hmem => ?_⟩⟩
  · rw [codeAt_codes_leaf hroot, if_pos rfl]
  · rw [codeAt_codes_leaf hroot, if_neg hne.symm]
  · rw [build_leafSyms hb] at hmem
    exact exists_codeword hb hroot hmem

/-- Where one codeword begins another, both are codewords of the same byte. -/
theorem eq_of_codeword_prefix {c : Config} {h : Hist} {t : HeldTree} (hb : build c h = some t) {a b : Byte}
    {p q : Codeword} (hp : codeAt (codes t.arena t.root) a = some p) (hq : codeAt (codes t.arena t.root) b = some q)
    (hpq : p <+: q) : a = b := by
  obtain ⟨w, s, hroot⟩ | ⟨w, l, r, hroot⟩ := build_root_cases hb
  · rw [codeAt_codes_leaf_iff hroot, Prod.mk.injEq] at hp hq
    exact hp.1.trans hq.1.symm
  · rw [codeAt_codes_iff hb hroot] at hp hq
    exact hp.eq_of_prefix hq hpq

/-- Settles O23: a path to a leaf ends there, so it begins no path to another leaf. -/
theorem codeIsPrefixFree : Obligations.CodeIsPrefixFree := by
  intro c h t hb
  refine ⟨fun a b p q hp hq hne hpq => hne (eq_of_codeword_prefix hb hp hq hpq),
    fun a b p hp hq => eq_of_codeword_prefix hb hp hq (List.prefix_refl p), fun hone a p hp => ?_⟩
  rw [build_leafSyms hb] at hone
  obtain ⟨s, hone⟩ := List.length_eq_one_iff.mp hone
  exact congrArg Prod.snd ((codeAt_codes_leaf_iff (build_root_leaf hb hone)).mp hp)

/-- The root weighs the sum of the counters, if that fits in 32 bits. -/
theorem build_rootWeight {c : Config} {h : Hist} {t : HeldTree} (hb : build c h = some t) (hsum : total h < 2 ^ 32) :
    (nodeWeight t.arena t.root).toNat = total h := by
  have start := MergeInv.init (histAt h) (build_some hb).1
  rw [presentBytes_sum, ← leavesOf_eq] at start
  obtain ⟨hinv, -⟩ := build_induct hb (fun _ _ _ _ hinv ha hb _ _ => hinv.merge hsum ha hb) start
    fun _ _ hinv => hinv.newest
  simpa using hinv.weights

/-- Settles O25: a path from the root takes one step for each internal node at most, of which there are n − 1. -/
theorem codewordLengths : Obligations.CodewordLengths := by
  intro c h t hb
  refine ⟨fun hn => ?_, build_rootWeight hb⟩
  rw [build_leafSyms hb] at hn ⊢
  have hmost := presentBytes_length_le c.symOrder h
  refine ⟨by omega, fun b hmem => ?_⟩
  obtain ⟨w, l, r, hroot⟩ := build_root_internal hb hn
  obtain ⟨p, hp, hne⟩ := exists_codeword hb hroot hmem
  obtain ⟨i, v, hpath, -⟩ := (codeAt_codes_iff hb hroot).mp hp
  have := followPath_length hb hpath
  have := build_length hb
  have := build_root hb
  exact ⟨p, hp, List.length_pos_iff.mpr hne, by omega⟩

/-! ### The Kraft sum (R131) -/

/-- What a byte adds to the Kraft sum, scaled by 2^255. -/
def kraftTerm : Option Codeword → Nat
  | none => 0
  | some p => 2 ^ (255 - p.length)

/-- A sum over bytes is a sum over their entries. -/
theorem sum_kraftTerm (k : CodeTable) (bs : List Byte) :
    (bs.map fun b => kraftTerm (codeAt k b)).sum =
      ((bs.filterMap fun b => (codeAt k b).map (b, ·)).map fun v => 2 ^ (255 - v.2.length)).sum := by
  induction bs with
  | nil => rfl
  | cons b bs ih =>
    rw [List.map_cons, List.sum_cons, ih, List.filterMap_cons]
    cases codeAt k b with
    | none => exact Nat.zero_add _
    | some p => rfl

/-- The Kraft sum of a table, from a list of its entries. -/
theorem kraftSum_eq {k : CodeTable} {vs : List (Byte × Codeword)} (hnodup : vs.Nodup)
    (hvs : ∀ b p, codeAt k b = some p ↔ (b, p) ∈ vs) :
    (allBytes.map fun b => kraftTerm (codeAt k b)).sum = (vs.map fun v => 2 ^ (255 - v.2.length)).sum := by
  have hentries : (allBytes.filterMap fun b => (codeAt k b).map (b, ·)).Perm vs := by
    refine (List.perm_ext_iff_of_nodup (allBytes_nodup.filterMap fun a b v ha hb => ?_) hnodup).mpr fun v => ?_
    · simp only [Option.mem_def, Option.map_eq_some_iff] at ha hb
      obtain ⟨p, -, rfl⟩ := ha
      obtain ⟨q, -, hq⟩ := hb
      exact (congrArg Prod.fst hq).symm
    · obtain ⟨b, p⟩ := v
      simp [List.mem_filterMap, mem_allBytes, hvs]
  rw [sum_kraftTerm, (hentries.map _).sum_eq]

/-- A walk that starts `|p|` steps below the root adds up to `2^(255 − |p|)`: a node's share is that of its two children
together. -/
theorem walk_kraft {c : Config} {h : Hist} {t : HeldTree} (hb : build c h = some t) {n i : Nat} {p : Codeword}
    (hn : i < n) (hi : i < t.arena.length)
    (hdepth : p.length + (i + 1 - (presentBytes c.symOrder h).length) ≤ 255) :
    ((walk t.arena n i p).map fun v => 2 ^ (255 - v.2.length)).sum = 2 ^ (255 - p.length) := by
  induction n generalizing i p with
  | zero => cases hn
  | succ n ih =>
    rw [walk, List.getElem?_eq_getElem hi]
    cases hnode : t.arena[i] with
    | leaf w s => simp
    | internal w l r =>
      obtain ⟨hfirst, htook⟩ := build_internal hb ((List.getElem?_eq_getElem hi).trans (congrArg some hnode))
      have hl := htook.left_lt
      have hr := htook.right_lt
      have deeper (x : Bool) : (p ++ [x]).length = p.length + 1 := List.length_append
      have half : 255 - p.length = 255 - (p.length + 1) + 1 := by omega
      have left := ih (i := l) (p := p ++ [false]) (by omega) (by omega) (by rw [deeper]; omega)
      have right := ih (i := r) (p := p ++ [true]) (by omega) (by omega) (by rw [deeper]; omega)
      rw [List.map_append, List.sum_append, left, right, deeper, deeper, half, Nat.pow_succ, Nat.mul_two]

theorem kraftSum_internal {c : Config} {h : Hist} {t : HeldTree} (hb : build c h = some t)
    (hn : 2 ≤ (presentBytes c.symOrder h).length) :
    (allBytes.map fun b => kraftTerm (codeAt (codes t.arena t.root) b)).sum = 2 ^ 255 := by
  obtain ⟨w, l, r, hroot⟩ := build_root_internal hb hn
  have := build_root hb
  have := build_length hb
  have := presentBytes_length_le c.symOrder h
  rw [kraftSum_eq (walk_nodup _ _ _ _) fun b p => (codeAt_codes_iff hb hroot).trans (mem_walk_iff hb).symm]
  exact walk_kraft hb (by omega) (by omega) (by rw [List.length_nil]; omega)

theorem kraftSum_leaf {arena : List Node} {root : Nat} {w : Word} {s : Byte} (h : arena[root]? = some (.leaf w s)) :
    (allBytes.map fun b => kraftTerm (codeAt (codes arena root) b)).sum = 2 ^ 254 := by
  rw [kraftSum_eq (List.nodup_singleton (s, [false])) fun b p =>
    (codeAt_codes_leaf_iff h).trans List.mem_singleton.symm, List.map_singleton, List.sum_singleton]
  congr 1

theorem dec_leaf {arena : List Node} {root : Nat} {w : Word} {s : Byte} (h : arena[root]? = some (.leaf w s))
    (u : Text) : dec u arena root = (u.filter isbit).map fun _ => s := by
  rw [dec, h]

/-- Settles O24: the sum over the table is the sum over the walk's visits. -/
theorem kraftEquality : Obligations.KraftEquality := by
  intro c h t hb
  rw [build_leafSyms hb]
  refine ⟨kraftSum_internal hb, fun hone => ?_⟩
  obtain ⟨s, hone⟩ := List.length_eq_one_iff.mp hone
  have hroot := build_root_leaf hb hone
  refine ⟨kraftSum_leaf hroot, fun b hmem => ?_⟩
  rw [hone, List.mem_singleton] at hmem
  rw [dec_leaf hroot, hmem]
  rfl

/-! ### One symbol (R114) -/

/-- `build` runs the merge loop from the leaves of the present bytes (R116). -/
theorem build_eq {c : Config} {h : Hist} {bs : List Byte} {arena : List Node} {q : List Nat}
    (hbs : presentBytes c.symOrder h = bs) (hne : bs ≠ [])
    (hloop : mergeLoop c bs.length (bs.map fun b => .leaf (histAt h b) b) (List.range bs.length) = (arena, q)) :
    build c h = some { arena := arena, root := q.headD 0 } := by
  have hleaves := leavesOf_eq c.symOrder h
  rw [hbs] at hleaves
  cases bs with
  | nil => exact absurd rfl hne
  | cons b bs =>
    simp only [List.map_cons, List.length_cons] at hleaves hloop
    simp only [build, hleaves, List.length_cons, List.length_map, hloop]

/-- Settles O14: the merge loop has nothing to merge. -/
theorem singleSymbolTree : Obligations.SingleSymbolTree := by
  intro c h b hb hothers
  have hone : presentBytes c.symOrder h = [b] := by
    refine presentBytes_eq (List.pairwise_singleton _ _) fun a => ?_
    rw [List.mem_singleton]
    exact ⟨fun hab => hab ▸ hb, fun ha => by_contra fun hne => ha (hothers a hne)⟩
  refine ⟨_, build_eq hone (List.cons_ne_nil _ _) rfl, rfl, ?_, fun a hne => ?_⟩
  · exact (codeAt_codes_leaf (w := histAt h b) rfl b).trans (if_pos rfl)
  · exact (codeAt_codes_leaf (w := histAt h b) rfl a).trans (if_neg hne.symm)

/-! ### The worked trace (R134) -/

/-- The text of the worked trace. -/
def tracedText : Text := [0x61, 0x61, 0x62, 0x62, 0x62, 0x63, 0x63]

/-- The tree of the worked trace. -/
def tracedTree : HeldTree where
  arena := [.leaf 2 0x61, .leaf 3 0x62, .leaf 2 0x63, .internal 4 0 2, .internal 7 1 3]
  root := 4

/-- Only the two leaves of weight 2 tie, and both symbols are below 0x80. -/
theorem mergeLoop_traced (c : Config) :
    mergeLoop c 3 [.leaf 2 0x61, .leaf 3 0x62, .leaf 2 0x63] [0, 1, 2] = (tracedTree.arena, [4]) := by
  obtain ⟨m, o, k⟩ := c
  cases o <;> rfl

theorem presentBytes_traced (o : SymOrder) : presentBytes o (count tracedText) = [0x61, 0x62, 0x63] := by
  refine presentBytes_eq (by cases o <;> decide) fun b => ?_
  have hfits : tracedText.length < 2 ^ 32 := by decide
  rw [ne_eq, ← BitVec.toNat_inj, histAt_count_toNat hfits]
  show _ ↔ ¬ tracedText.count b = 0
  rw [List.count_eq_zero, not_not]
  simp [tracedText]

theorem build_traced (c : Config) : build c (count tracedText) = some tracedTree := by
  have hleaves : [0x61, 0x62, 0x63].map (fun b => Node.leaf (histAt (count tracedText) b) b) =
      [.leaf 2 0x61, .leaf 3 0x62, .leaf 2 0x63] := by
    simp only [histAt_count]
    rfl
  exact build_eq (presentBytes_traced c.symOrder) (List.cons_ne_nil _ _) (hleaves ▸ mergeLoop_traced c)

/-- Settles O22: the leaves are in byte order, the merges meet no tie that the configuration decides, and each codeword
is the path to its leaf. -/
theorem workedTrace : Obligations.WorkedTrace := by
  rintro c h rfl
  have hb := build_traced c
  refine ⟨hb, fun t ht => ?_⟩
  obtain rfl : tracedTree = t := Option.some.inj (hb.symm.trans ht)
  have code {p : Codeword} {b : Byte} (hp : tracedTree.Reaches p b) := (codeAt_codes_iff hb (w := 7) rfl).mpr hp
  exact ⟨code ⟨0, 2, rfl, rfl⟩, code ⟨1, 3, rfl, rfl⟩, code ⟨2, 2, rfl, rfl⟩⟩

end Sys2Proof.Machine

/-! PROOFS. What `build` depends on (41_tree_builder.md R119), and what BUILD and RDCODE answer (R120, R122). -/

namespace Sys2Proof.Machine

/-! ### What `build` depends on (R119) -/

section
variable {c c' : Config}

theorem prio_congr (horder : c.symOrder = c'.symOrder) (hkey : c.internalKey = c'.internalKey) : prio c = prio c' := by
  funext arena i
  simp only [prio, tkey, horder, hkey]

theorem extractLeast_congr (hprio : prio c = prio c') : extractLeast c = extractLeast c' := by
  have hleast (arena : List Node) (q : List Nat) (i : Nat) : leastOf c arena i q = leastOf c' arena i q := by
    induction q generalizing i with
    | nil => rfl
    | cons j q ih => rw [leastOf, leastOf, hprio, ih, ih]
  funext arena q
  cases q with
  | nil => rfl
  | cons i q => rw [extractLeast, extractLeast, hleast]

theorem mergeLoop_congr (hleast : extractLeast c = extractLeast c') (n : Nat) (arena : List Node) (q : List Nat) :
    mergeLoop c n arena q = mergeLoop c' n arena q := by
  induction n generalizing arena q with
  | zero => rfl
  | succ n ih => simp only [mergeLoop, hleast, ih]

theorem build_congr (h : Hist) (horder : c.symOrder = c'.symOrder) (hkey : c.internalKey = c'.internalKey) :
    build c h = build c' h := by
  have hleast := extractLeast_congr (prio_congr horder hkey)
  simp only [build, horder, mergeLoop_congr hleast]

end

theorem exec_build_nonempty {s : State} (h : ∃ b, histAt s.hist b ≠ 0) : ∃ tr, build s.cfg s.hist = some tr ∧
    exec .build s = .next (complete (holdTree s tr) (BitVec.ofNat 32 (nsym s.hist))) := by
  obtain ⟨b, hb⟩ := h
  obtain ⟨tr, htr⟩ := Option.ne_none_iff_exists'.mp fun hnone => hb (build_eq_none.mp hnone b)
  exact ⟨tr, htr, execBuild_some htr⟩

/-- Settles O19: `build` reads the configuration through the priorities and the seeding order only, and BUILD holds what
`build` gives. -/
theorem buildIsDeterministic : Obligations.BuildIsDeterministic := by
  refine ⟨fun c c' h => build_congr h, fun s s' t t' hhist horder hkey hne ht ht' => ?_⟩
  obtain ⟨tr, htr, hs⟩ := exec_build_nonempty hne
  obtain ⟨tr', htr', hs'⟩ := exec_build_nonempty (hhist ▸ hne)
  have hsame : tr = tr' := by
    rw [← hhist, ← build_congr _ horder hkey, htr] at htr'
    exact Option.some.inj htr'
  rw [hs] at ht
  rw [hs'] at ht'
  cases ht
  cases ht'
  simp [hsame]

/-! ### BUILD (R120) -/

/-- Settles O20: the built tree has one leaf for each present byte. -/
theorem buildResult : Obligations.BuildResult := by
  intro s
  refine ⟨fun hzero => execBuild_none (build_eq_none.mpr hzero), fun hne => ?_⟩
  obtain ⟨tr, htr, hs⟩ := exec_build_nonempty hne
  refine ⟨tr, _, htr, hs, ?_, ?_, ?_⟩
  · rw [nsym_eq_length]
    rfl
  · rw [regValue, complete_tree, holdTree_tree, nleaf, build_leafSyms htr, presentBytes_length, complete_result,
      nsym_eq_length]
  · simp [regValue]

/-! ### RDCODE (R122) -/

theorem bitchar_eq (x : Bool) : bitchar x = if x then 0x31 else 0x30 := by cases x <;> rfl

/-- Settles O21: the three ends of RDCODE; the output is one character for each bit. -/
theorem rdcodeResult : Obligations.RdcodeResult := by
  intro b s
  refine ⟨execRdcode_none, fun w hw hdst => ⟨_, execRdcode_in hw hdst, fun i x hx => ?_, fun a ha => ?_, ?_⟩,
    fun w hw hdst => execRdcode_out hw hdst⟩
  · obtain ⟨hi, rfl⟩ := List.getElem?_eq_some_iff.mp hx
    refine readByte_of_read ?_
    rw [commitOutput_mem, read_writeText_inside _ _ _ _ (by rwa [chars_length])]
    simp [chars, bitchar_eq]
  · refine readByte_congr ?_ rfl
    rw [commitOutput_mem, read_writeText_outside]
    rw [chars_length]
    omega
  · rw [← chars_length w]
    rfl

end Sys2Proof.Machine

/-! PROOFS. The codec: the encoding and its length (42_codec.md R150, R151), what ENCODE answers (R152), the decoding walk
(R156, R157, R159), what DECODE answers (R154, R155), and the round trip (R158). -/

namespace Sys2Proof.Machine

/-! ### The output text of a command (20_memory.md R61, 60_exceptions.md R194) -/

theorem outputError_dstRange {s : State} {n : Nat} (h : ¬ dstInRange s n) : outputError s n = some .dstRange := if_pos h

theorem outputError_overlap {s : State} {n : Nat} (hdst : dstInRange s n) (hover : overlap s n) :
    outputError s n = some .overlap := by
  rw [outputError, if_neg (not_not_intro hdst), if_pos hover]

theorem readByte_commitOutput_inside (s : State) {out : Text} {i : Nat} {x : Byte} (hx : out[i]? = some x) :
    (commitOutput s out).readByte (s.dst.toNat + i) = x := by
  obtain ⟨hi, rfl⟩ := List.getElem?_eq_some_iff.mp hx
  exact readByte_of_read (read_writeText_inside _ _ _ _ hi)

theorem readByte_commitOutput_outside (s : State) (out : Text) {a : Nat}
    (ha : ¬ (s.dst.toNat ≤ a ∧ a < s.dst.toNat + out.length)) : (commitOutput s out).readByte a = s.readByte a :=
  readByte_congr (read_writeText_outside _ _ _ _ (by omega)) rfl

/-- A text just written is read back. -/
theorem readText_commitOutput (s : State) (out : Text) :
    readText (commitOutput s out) s.dst.toNat out.length = out := by
  refine List.ext_getElem (readText_length _ _ _) fun i h hi => ?_
  rw [readText_getElem, readByte_commitOutput_inside s (List.getElem?_eq_getElem hi)]

/-- An output that passes the range check has a length that fits in RESULT. -/
theorem toNat_length_of_dstInRange {s : State} (hcfg : s.cfg.wf = true) {out : Text} (hdst : dstInRange s out.length) :
    (BitVec.ofNat 32 out.length).toNat = out.length := by
  have := memBytes_le_of_wf hcfg
  rw [BitVec.toNat_ofNat, Nat.mod_eq_of_lt (by obtain h | h := hdst <;> omega)]

/-! ### The encoding (R150) -/

theorem enc_cons_some {k : CodeTable} {b : Byte} {p : Codeword} (h : codeAt k b = some p) (t : Text) :
    enc (b :: t) k = chars p ++ enc t k := by
  rw [enc_cons, h, Option.map_some, Option.getD_some]

theorem enc_eq_chars_flatten {k : CodeTable} {t : Text} {ps : List Codeword} (h : ps.map some = t.map (codeAt k)) :
    enc t k = chars ps.flatten := by
  induction t generalizing ps with
  | nil =>
    obtain rfl := List.map_eq_nil_iff.mp h
    rfl
  | cons b t ih =>
    obtain ⟨p, qs, rfl, hp, hqs⟩ := List.map_eq_cons_iff.mp h
    rw [enc_cons_some hp.symm, ih hqs, List.flatten_cons, chars, chars, chars, List.map_append]

/-- The codeword of a present byte is not empty and has at most 255 bits (41_tree_builder.md R114, R132). -/
theorem exists_codeword_of_present {c : Config} {h : Hist} {t : HeldTree} (hb : build c h = some t) {b : Byte}
    (hmem : b ∈ presentBytes c.symOrder h) :
    ∃ p, codeAt (codes t.arena t.root) b = some p ∧ 1 ≤ p.length ∧ p.length ≤ 255 := by
  have hpos := List.length_pos_of_mem hmem
  obtain hone | hmany : (presentBytes c.symOrder h).length = 1 ∨ 2 ≤ (presentBytes c.symOrder h).length := by omega
  · obtain ⟨s, hs⟩ := List.length_eq_one_iff.mp hone
    rw [hs, List.mem_singleton] at hmem
    subst hmem
    exact ⟨[false], (codeAt_codes_leaf_iff (build_root_leaf hb hs)).mpr rfl, by decide, by decide⟩
  · rw [← build_leafSyms hb] at hmem hmany
    obtain ⟨hmost, hcodes⟩ := (codewordLengths c h t hb).1 hmany
    obtain ⟨p, hp, hlow, hhigh⟩ := hcodes b hmem
    exact ⟨p, hp, hlow, hhigh.trans hmost⟩

/-- A byte of a text is present in the text's histogram, since its counter does not wrap to 0. -/
theorem mem_presentBytes_count {t : Text} (ht : t.length < 2 ^ 32) (o : SymOrder) {b : Byte} (hb : b ∈ t) :
    b ∈ presentBytes o (count t) := by
  rw [mem_presentBytes]
  intro hzero
  have hcount := histAt_count_toNat ht b
  rw [hzero] at hcount
  exact absurd hb (List.count_eq_zero.mp hcount.symm)

theorem exists_build_count (c : Config) {t : Text} (ht : t.length < 2 ^ 32) (hne : t ≠ []) :
    ∃ tr, build c (count t) = some tr := by
  obtain ⟨b, hb⟩ := List.exists_mem_of_ne_nil t hne
  refine Option.ne_none_iff_exists'.mp fun hnone => ?_
  exact mem_presentBytes.mp (mem_presentBytes_count ht c.symOrder hb) (build_eq_none.mp hnone b)

/-- Settles O26: by induction on the text; and every byte of a text is present in the text's own tree. -/
theorem encodingConcatenatesCodewords : Obligations.EncodingConcatenatesCodewords := by
  refine ⟨fun t k ps hps => ?_, fun c t ht hne => ?_⟩
  · rw [enc_eq_chars_flatten hps, chars]
    exact List.map_congr_left fun x _ => bitchar_eq x
  · obtain ⟨tr, htr⟩ := exists_build_count c ht hne
    refine ⟨tr, htr, fun b hb => ?_⟩
    obtain ⟨p, hp, -⟩ := exists_codeword_of_present htr (mem_presentBytes_count ht c.symOrder hb)
    exact ⟨p, hp⟩

/-! ### The encoded length (R151) -/

theorem enc_length (t : Text) (k : CodeTable) :
    (enc t k).length = (t.map fun b => ((codeAt k b).getD []).length).sum := by
  induction t with
  | nil => rfl
  | cons b t ih =>
    rw [enc_cons, List.length_append, ih, List.map_cons, List.sum_cons]
    cases codeAt k b <;> simp

/-- A sum over the positions of a text, taken byte by byte. -/
theorem sum_map_eq_sum_count (f : Byte → Nat) (t : Text) :
    (t.map f).sum = (allBytes.map fun b => f b * t.count b).sum := by
  rw [← List.sum_toFinset _ allBytes_nodup, Finset.sum_list_map_count]
  simp only [smul_eq_mul, Nat.mul_comm]
  refine Finset.sum_subset (fun b _ => List.mem_toFinset.mpr (mem_allBytes b)) fun b _ hb => ?_
  rw [List.count_eq_zero.mpr fun h => hb (List.mem_toFinset.mpr h), Nat.mul_zero]

theorem enc_length_eq_sum_count (t : Text) (k : CodeTable) :
    (enc t k).length = (allBytes.map fun b => ((codeAt k b).getD []).length * t.count b).sum := by
  rw [enc_length, sum_map_eq_sum_count]

theorem enc_length_le {c : Config} {t : Text} {tr : HeldTree} (ht : t.length < 2 ^ 32)
    (hb : build c (count t) = some tr) : (enc t (codes tr.arena tr.root)).length ≤ t.length * 255 := by
  rw [enc_length, ← List.length_map (as := t) fun b => ((codeAt (codes tr.arena tr.root) b).getD []).length]
  refine List.sum_le_card_nsmul _ _ fun n hn => ?_
  obtain ⟨b, hmem, rfl⟩ := List.mem_map.mp hn
  obtain ⟨p, hp, -, hmost⟩ := exists_codeword_of_present hb (mem_presentBytes_count ht c.symOrder hmem)
  rwa [hp, Option.getD_some]

/-! ### ENCODE (R152) -/

theorem inputText_length_lt (s : State) : (inputText s).length < 2 ^ 32 := by
  rw [inputText_length]
  exact s.len.isLt

theorem inputText_ne_nil {s : State} (h : s.len ≠ 0) : inputText s ≠ [] := fun hnil =>
  h (BitVec.eq_of_toNat_eq (by rw [← inputText_length, hnil]; rfl))

theorem exists_build_inputText {s : State} (h : s.len ≠ 0) : ∃ tr, build s.cfg (count (inputText s)) = some tr :=
  exists_build_count s.cfg (inputText_length_lt s) (inputText_ne_nil h)

/-- Every ENCODE that computes an output answers its length, with the code OK, DST_RANGE or OVERLAP. -/
theorem execEncode_result {s : State} {tr : HeldTree} (hlen : s.len ≠ 0) (hsrc : srcInRange s)
    (hb : build s.cfg (count (inputText s)) = some tr) : ∃ t, execEncode s = .next t ∧
      (t.err = 0 ∨ t.err = 3 ∨ t.err = 4) ∧
      t.result = BitVec.ofNat 32 (enc (inputText s) (codes tr.arena tr.root)).length := by
  cases he : outputError s (enc (inputText s) (codes tr.arena tr.root)).length with
  | none => exact ⟨_, execEncode_output hlen hsrc hb he, .inl rfl, rfl⟩
  | some e =>
    refine ⟨_, execEncode_error hlen hsrc hb he, .inr ?_, rfl⟩
    obtain ⟨rfl, -⟩ | ⟨rfl, -, -⟩ := outputError_some he
    · exact .inl rfl
    · exact .inr rfl

/-- Settles O27: at most 2^24 bytes with at most 255 bits each, so RESULT holds the length untruncated. -/
theorem encodedLengthIsWeightedSum : Obligations.EncodedLengthIsWeightedSum := by
  refine ⟨enc_length_eq_sum_count, fun s hcfg hlen hsrc => ?_⟩
  obtain ⟨tr, hb⟩ := exists_build_inputText hlen
  obtain ⟨t, ht, herr, hresult⟩ := execEncode_result hlen hsrc hb
  have hmost := enc_length_le (inputText_length_lt s) hb
  have hbytes := (len_le_memBytes hsrc).trans (memBytes_le_of_wf hcfg)
  rw [inputText_length] at hmost
  have hexact : t.result.toNat = (enc (inputText s) (codes tr.arena tr.root)).length := by
    rw [hresult, BitVec.toNat_ofNat, Nat.mod_eq_of_lt (by omega)]
  refine ⟨tr, t, hb, ht, herr, hexact, ?_, by omega⟩
  rw [hexact, enc_length_eq_sum_count]
  simp only [histAt_count_toNat (inputText_length_lt s)]

/-- Settles O28: the ends of ENCODE; a nonempty text always builds a tree. -/
theorem encodeResult : Obligations.EncodeResult := by
  intro s
  refine ⟨execEncode_empty, execEncode_out, fun hlen hsrc => ?_⟩
  obtain ⟨tr, hb⟩ := exists_build_inputText hlen
  refine ⟨tr, hb, ?_⟩
  rintro out rfl
  refine ⟨fun hdst => execEncode_error hlen hsrc hb (outputError_dstRange hdst),
    fun hdst hover => execEncode_error hlen hsrc hb (outputError_overlap hdst hover), fun hdst hover => ?_⟩
  exact ⟨_, execEncode_output hlen hsrc hb (outputError_none.mpr ⟨hdst, hover⟩),
    fun i x => readByte_commitOutput_inside _, fun a => readByte_commitOutput_outside _ _, rfl⟩

/-! ### The decoding walk (R156) -/

@[simp] theorem decWalk_nil (arena : List Node) (root i : Nat) : decWalk arena root i [] = [] := rfl

/-- A malformed byte is skipped (R153). -/
theorem decWalk_malformed {u : Byte} (hu : ¬ isbit u = true) (arena : List Node) (root i : Nat) (us : Text) :
    decWalk arena root i (u :: us) = decWalk arena root i us := by
  rw [decWalk, if_neg hu]

theorem decWalk_filter (arena : List Node) (root i : Nat) (u : Text) :
    decWalk arena root i (u.filter isbit) = decWalk arena root i u := by
  induction u generalizing i with
  | nil => rfl
  | cons b u ih =>
    by_cases hbit : isbit b = true
    · rw [List.filter_cons_of_pos hbit, decWalk, decWalk]
      simp only [ih]
    · rw [List.filter_cons_of_neg hbit, ih, decWalk_malformed hbit]

/-- The walk emits at most one symbol for each bit character. -/
theorem decWalk_length_le (arena : List Node) (root i : Nat) (u : Text) :
    (decWalk arena root i u).length ≤ u.countP isbit := by
  induction u generalizing i with
  | nil => exact Nat.zero_le _
  | cons b u ih =>
    by_cases hbit : isbit b = true
    · rw [decWalk, if_pos hbit, List.countP_cons_of_pos hbit]
      split
      · exact Nat.succ_le_succ (ih _)
      · exact (ih _).trans (Nat.le_succ _)
    · rw [decWalk_malformed hbit, List.countP_cons_of_neg hbit]
      exact ih i

section
variable {arena : List Node} {i : Nat} {w : Word} {l r : Nat}

theorem childOf_bitchar (hi : arena[i]? = some (.internal w l r)) (x : Bool) :
    childOf arena i (bitchar x) = if x then r else l := by
  rw [childOf, hi]
  cases x <;> rfl

/-- A step to a leaf emits its symbol and goes back to the root. -/
theorem decWalk_toLeaf (hi : arena[i]? = some (.internal w l r)) {x : Bool} {v : Word} {b : Byte}
    (hchild : arena[if x then r else l]? = some (.leaf v b)) (root : Nat) (u : Text) :
    decWalk arena root i (bitchar x :: u) = b :: decWalk arena root root u := by
  rw [decWalk, if_pos (isbit_bitchar x), childOf_bitchar hi, hchild]

/-- A step to an internal node emits nothing. -/
theorem decWalk_toInternal (hi : arena[i]? = some (.internal w l r)) {x : Bool} {v : Word} {l' r' : Nat}
    (hchild : arena[if x then r else l]? = some (.internal v l' r')) (root : Nat) (u : Text) :
    decWalk arena root i (bitchar x :: u) = decWalk arena root (if x then r else l) u := by
  rw [decWalk, if_pos (isbit_bitchar x), childOf_bitchar hi, hchild]

end

/-- A path to an internal node starts at an internal node. -/
theorem internal_of_followPath {arena : List Node} {i j : Nat} {p : Codeword} (hp : followPath arena i p = some j)
    (hj : ∃ w l r, arena[j]? = some (.internal w l r)) : ∃ w l r, arena[i]? = some (.internal w l r) := by
  cases p with
  | nil =>
    obtain rfl := Option.some.inj hp
    exact hj
  | cons x p =>
    obtain ⟨w, l, r, hi, -⟩ := followPath_cons_inv hp
    exact ⟨w, l, r, hi⟩

/-- The characters of a path to an internal node lead the walk there and emit nothing. -/
theorem decWalk_path {arena : List Node} {i j : Nat} {p : Codeword} (hp : followPath arena i p = some j)
    (hj : ∃ w l r, arena[j]? = some (.internal w l r)) (root : Nat) (u : Text) :
    decWalk arena root i (chars p ++ u) = decWalk arena root j u := by
  induction p generalizing i with
  | nil =>
    obtain rfl := Option.some.inj hp
    rfl
  | cons x p ih =>
    obtain ⟨w, l, r, hi, hrest⟩ := followPath_cons_inv hp
    obtain ⟨v, l', r', hchild⟩ := internal_of_followPath hrest hj
    exact (decWalk_toInternal hi hchild root _).trans (ih hrest)

/-! ### The decoding function (R156, R157, R159) -/

theorem dec_of_not_leaf {arena : List Node} {root : Nat} (h : ∀ w s, arena[root]? ≠ some (.leaf w s)) (u : Text) :
    dec u arena root = decWalk arena root root u := by
  rw [dec]
  split
  · next w s hroot => exact absurd hroot (h w s)
  · rfl

theorem dec_internal {arena : List Node} {root : Nat} {w : Word} {l r : Nat}
    (h : arena[root]? = some (.internal w l r)) (u : Text) : dec u arena root = decWalk arena root root u :=
  dec_of_not_leaf (fun v s hleaf => by rw [h] at hleaf; cases hleaf) u

/-- The two cases of `dec`: the root is a leaf, or every input is walked. -/
theorem dec_cases (arena : List Node) (root : Nat) :
    (∃ w s, arena[root]? = some (.leaf w s)) ∨ ∀ u, dec u arena root = decWalk arena root root u := by
  by_cases h : ∃ w s, arena[root]? = some (.leaf w s)
  · exact .inl h
  · exact .inr (dec_of_not_leaf fun w s hleaf => h ⟨w, s, hleaf⟩)

@[simp] theorem dec_nil (arena : List Node) (root : Nat) : dec [] arena root = [] := by
  obtain ⟨w, s, hroot⟩ | hwalk := dec_cases arena root
  · rw [dec_leaf hroot]
    rfl
  · rw [hwalk, decWalk_nil]

theorem dec_length_le (u : Text) (arena : List Node) (root : Nat) : (dec u arena root).length ≤ u.countP isbit := by
  obtain ⟨w, s, hroot⟩ | hwalk := dec_cases arena root
  · rw [dec_leaf hroot, List.length_map, List.countP_eq_length_filter]
  · rw [hwalk]
    exact decWalk_length_le _ _ _ _

/-- Settles O33: both cases of `dec` look at the bit characters only. -/
theorem malformedBytesSkipped : Obligations.MalformedBytesSkipped := by
  intro u arena root
  obtain ⟨w, s, hroot⟩ | hwalk := dec_cases arena root
  · rw [dec_leaf hroot, dec_leaf hroot, List.filter_filter]
    simp only [Bool.and_self]
  · rw [hwalk, hwalk, decWalk_filter]

/-- The characters of a path from an internal root to a leaf give its symbol. -/
theorem dec_reaches {t : HeldTree} {w : Word} {l r : Nat} (hroot : t.arena[t.root]? = some (.internal w l r))
    {p : Codeword} {b : Byte} (hp : t.Reaches p b) (u : Text) :
    dec (chars p ++ u) t.arena t.root = b :: dec u t.arena t.root := by
  obtain ⟨i, v, hpath, hleaf⟩ := hp
  rw [dec_internal hroot, dec_internal hroot]
  obtain rfl | ⟨q, x, rfl⟩ := List.eq_nil_or_concat' p
  · obtain rfl := Option.some.inj hpath
    rw [hroot] at hleaf
    cases hleaf
  · obtain ⟨k, w', l', r', hq, hk, rfl⟩ := followPath_concat_inv hpath
    rw [chars, List.map_append, List.append_assoc]
    exact (decWalk_path hq ⟨w', l', r', hk⟩ t.root _).trans (decWalk_toLeaf hk hleaf t.root u)

/-- Settles O31: the walk follows the path to the parent of the leaf, and the last step emits the symbol. -/
theorem decodingWalksFromRoot : Obligations.DecodingWalksFromRoot := by
  refine fun t => ⟨fun w s u hroot => ?_, fun w l r hroot => ⟨dec_nil _ _, fun p b u hp => dec_reaches hroot hp u⟩⟩
  rw [dec_leaf hroot, List.map_const', List.countP_eq_length_filter]

/-- A codeword of a built tree decodes to its byte, and decoding goes on from the root. -/
theorem dec_codeword {c : Config} {h : Hist} {t : HeldTree} (hb : build c h = some t) {b : Byte} {p : Codeword}
    (hp : codeAt (codes t.arena t.root) b = some p) (u : Text) :
    dec (chars p ++ u) t.arena t.root = b :: dec u t.arena t.root := by
  obtain ⟨w, s, hroot⟩ | ⟨w, l, r, hroot⟩ := build_root_cases hb
  · cases (codeAt_codes_leaf_iff hroot).mp hp
    rw [dec_leaf hroot, dec_leaf hroot]
    rfl
  · exact dec_reaches hroot ((codeAt_codes_iff hb hroot).mp hp) u

/-- The encoding of a text decodes to the text, and decoding goes on from the root. -/
theorem dec_enc_append {c : Config} {h : Hist} {tr : HeldTree} (hb : build c h = some tr) {t : Text}
    (ht : ∀ b ∈ t, b ∈ presentBytes c.symOrder h) (u : Text) :
    dec (enc t (codes tr.arena tr.root) ++ u) tr.arena tr.root = t ++ dec u tr.arena tr.root := by
  induction t with
  | nil => rfl
  | cons b t ih =>
    obtain ⟨hpresent, hrest⟩ := List.forall_mem_cons.mp ht
    obtain ⟨p, hp, -⟩ := exists_codeword_of_present hb hpresent
    rw [enc_cons_some hp, List.append_assoc, dec_codeword hb hp, ih hrest, List.cons_append]

/-- A path that ends inside the tree gives nothing. -/
theorem dec_inside {t : HeldTree} {p : Codeword} (hp : t.Inside p) : dec (chars p) t.arena t.root = [] := by
  obtain ⟨i, w, l, r, hpath, hi⟩ := hp
  obtain ⟨v, l', r', hroot⟩ := internal_of_followPath hpath ⟨w, l, r, hi⟩
  have hwalk := decWalk_path hpath ⟨w, l, r, hi⟩ t.root []
  rwa [List.append_nil, ← dec_internal hroot] at hwalk

/-- Settles O32: whole codewords give their text, and the path after them gives nothing. -/
theorem trailingPartialPathDropped : Obligations.TrailingPartialPathDropped := by
  intro c h tr t p hb ht hp
  rw [build_leafSyms hb] at ht
  rw [dec_enc_append hb ht, dec_inside hp, List.append_nil]

/-- A text is decoded from its encoding in its own code (R158). -/
theorem dec_enc_count {c : Config} {t : Text} {tr : HeldTree} (ht : t.length < 2 ^ 32)
    (hb : build c (count t) = some tr) : dec (enc t (codes tr.arena tr.root)) tr.arena tr.root = t := by
  have hdec := dec_enc_append hb (fun b => mem_presentBytes_count ht c.symOrder) []
  rwa [List.append_nil, dec_nil, List.append_nil] at hdec

/-! ### DECODE (R154, R155) -/

/-- Without a tree or without an input DECODE does nothing. -/
theorem execDecode_nothing {s : State} (h : s.tree = none ∨ s.len = 0) : execDecode s = .next (complete s 0) :=
  h.elim execDecode_noTree execDecode_empty

/-- Settles O29: the ends of DECODE; the output has at most one symbol for each bit character of the input. -/
theorem decodeResult : Obligations.DecodeResult := by
  intro s
  refine ⟨execDecode_nothing, fun tr htr hlen => ⟨execDecode_out htr hlen, fun hsrc => ?_⟩⟩
  rintro out rfl
  have hbits := dec_length_le (inputText s) tr.arena tr.root
  have hbytes : (inputText s).countP isbit ≤ s.len.toNat := inputText_length s ▸ List.countP_le_length
  refine ⟨hbits, hbits.trans hbytes, fun hdst => execDecode_error htr hlen hsrc (outputError_dstRange hdst),
    fun hdst hover => execDecode_error htr hlen hsrc (outputError_overlap hdst hover), fun hdst hover => ?_⟩
  exact ⟨_, execDecode_output htr hlen hsrc (outputError_none.mpr ⟨hdst, hover⟩),
    fun i x => readByte_commitOutput_inside s, fun a => readByte_commitOutput_outside s _, rfl⟩

/-- Settles O30: no end of DECODE, and no test that leads to it, names the histogram or the code table. -/
theorem decodeReadsHeldTreeOnly : Obligations.DecodeReadsHeldTreeOnly := by
  intro s t h k ht
  obtain ⟨hnothing, rfl⟩ | ⟨htr, hlen, hsrc, rfl⟩ | ⟨tr, e, htr, hlen, hsrc, he, rfl⟩ | ⟨tr, htr, hlen, hsrc, he, rfl⟩ :=
    execDecode_cases ht
  · exact ⟨rfl, rfl, rfl, execDecode_nothing hnothing⟩
  · obtain ⟨tr, htr⟩ := Option.ne_none_iff_exists'.mp htr
    exact ⟨rfl, rfl, rfl, execDecode_out htr hlen hsrc⟩
  · exact ⟨rfl, rfl, rfl, execDecode_error htr hlen hsrc he⟩
  · exact ⟨rfl, rfl, rfl, execDecode_output htr hlen hsrc he⟩

/-! ### The round trip (R158) -/

theorem raiseCmdError_err_ne_zero (s : State) (e : CmdError) (r : Word) : (raiseCmdError s e r).err ≠ 0 := by
  rw [raiseCmdError_err]
  cases e <;> decide

/-- An ENCODE of a nonempty text that ends without error wrote the encoding and holds the text's tree. -/
theorem execEncode_ok {s t : State} (hlen : s.len ≠ 0) (ht : execEncode s = .next t) (herr : t.err = 0) :
    ∃ tr, build s.cfg (count (inputText s)) = some tr ∧
      dstInRange s (enc (inputText s) (codes tr.arena tr.root)).length ∧
      t = commitOutput (holdTree { s with hist := count (inputText s) } tr)
        (enc (inputText s) (codes tr.arena tr.root)) := by
  obtain ⟨hempty, -⟩ | ⟨-, -, rfl⟩ | ⟨-, -, hnone, -⟩ | ⟨tr, e, -, -, -, -, rfl⟩ | ⟨tr, -, -, hb, he, rfl⟩ :=
    execEncode_cases ht
  · exact absurd hempty hlen
  · exact absurd herr (raiseCmdError_err_ne_zero s _ _)
  · obtain ⟨tr, hb⟩ := exists_build_inputText hlen
    rw [hnone] at hb
    cases hb
  · exact absurd herr (raiseCmdError_err_ne_zero s _ _)
  · exact ⟨tr, hb, (outputError_none.mp he).1, rfl⟩

/-- A DECODE whose input decodes to a text that fits and does not overlap writes that text. -/
theorem execDecode_writes {u : State} {tr : HeldTree} {out : Text} (htr : u.tree = some tr) (hlen : u.len ≠ 0)
    (hsrc : srcInRange u) (hout : dec (inputText u) tr.arena tr.root = out) (hdst : dstInRange u out.length)
    (hover : ¬ overlap u out.length) : execDecode u = .next (commitOutput u out) := by
  subst hout
  exact execDecode_output htr hlen hsrc (outputError_none.mpr ⟨hdst, hover⟩)

/-- Settles O34: DECODE reads the encoding that ENCODE wrote, and the held tree decodes it to the text. -/
theorem roundTrip : Obligations.RoundTrip := by
  intro s t hcfg hlen ht herr
  obtain ⟨tr, hb, hfits, rfl⟩ := execEncode_ok hlen ht herr
  have hdec := dec_enc_count (inputText_length_lt s) hb
  refine ⟨⟨tr, rfl, hdec⟩, fun u hucfg hutree husrc hulen hsame hdst hover => ?_⟩
  generalize hout : enc (inputText s) (codes tr.arena tr.root) = out at *
  have hexact := toNat_length_of_dstInRange hcfg hfits
  have hulen' : u.len.toNat = out.length := by rw [hulen, commitOutput_result, hexact]
  have hin : inputText u = out := by
    rw [inputText, husrc, hulen', readText_congr fun i hi => hsame i (hexact.symm ▸ hi)]
    exact readText_commitOutput _ out
  have hne : u.len ≠ 0 := by
    intro hzero
    have hnil : inputText u = [] := List.length_eq_zero_iff.mp (by rw [inputText_length, hzero]; rfl)
    exact inputText_ne_nil hlen (by rw [← hdec, ← hin, hnil, dec_nil])
  have hsrc : srcInRange u := by
    rw [srcInRange, husrc, hulen', hucfg]
    exact .inr (hfits.resolve_left fun hzero => hne (BitVec.eq_of_toNat_eq (hulen'.trans hzero)))
  rw [← inputText_length s] at hdst hover
  refine ⟨_, execDecode_writes hutree hne hsrc (hin.symm ▸ hdec) hdst hover, rfl, ?_, ?_⟩
  · rw [commitOutput_result, inputText_length, BitVec.ofNat_toNat, BitVec.setWidth_eq]
  · rw [← inputText_length s]
    exact readText_commitOutput u _

end Sys2Proof.Machine

/-! PROOFS. The control commands: what NOP keeps (43_control.md R180) and the fresh core after RESET (R182). -/

namespace Sys2Proof.Machine

/-! ### NOP (R180) -/

theorem exec_nop (s : State) : exec .nop s = .next (complete s s.result) := rfl

/-- Settles O5: NOP completes with the RESULT it found. -/
theorem nopClearsErrOnly : Obligations.NopClearsErrOnly :=
  fun s => ⟨complete s s.result, exec_nop s, rfl, rfl⟩

/-! ### RESET (R182) -/

theorem exec_reset (s : State) :
    exec .reset s = .next (complete { s with hist := noCounts, code := noCodes, tree := none } 0) := rfl

/-- Settles O6: the fresh tables read 0, and without a tree and a code entry DECODE and RDCODE have nothing to answer. -/
theorem resetCommandGivesFreshCore : Obligations.ResetCommandGivesFreshCore := by
  intro s
  refine ⟨_, exec_reset s, histAt_noCounts, codeAt_noCodes, rfl, rfl, ?nsym, ?total, rfl,
    fun u htree hcode => ⟨execDecode_noTree htree, fun b => execRdcode_none ?entry⟩⟩
  case nsym => rw [regValue, complete_hist, nsym_noCounts]; rfl
  case total => rw [regValue, complete_hist, total_noCounts]; rfl
  case entry => rw [hcode, complete_code, codeAt_noCodes]

end Sys2Proof.Machine

/-! PROOFS. Errors (60_exceptions.md): what an error changes (R193), which codes each command raises (R192), the order of
the checks (R194), and the step that runs the decoded command (R196). -/

namespace Sys2Proof.Machine

/-! ### What an error changes (R193) -/

/-- Settles O35: every end of a command is a normal completion, with ERR = 0, or the raising of an error. -/
theorem errorChangesNothingElse : Obligations.ErrorChangesNothingElse := by
  intro i s t h herr
  cases exec_completesAs h with
  | error e r => rfl
  | result | cleared | counted | built | encoded | output => exact absurd rfl herr

/-! ### The codes a command can raise (R192) -/

theorem outputError_code {s : State} {n : Nat} {e : CmdError} (h : outputError s n = some e) :
    e.code = 3 ∨ e.code = 4 := by
  obtain ⟨rfl, -⟩ | ⟨rfl, -, -⟩ := outputError_some h
  · exact .inl rfl
  · exact .inr rfl

theorem execBuild_err {s t : State} (h : execBuild s = .next t) : t.err = 0 := by
  obtain ⟨-, rfl⟩ | ⟨tr, -, rfl⟩ := execBuild_cases h <;> rfl

theorem execCount_err {s t : State} (h : execCount s = .next t) : t.err = 0 ∨ t.err = 2 := by
  obtain ⟨-, rfl⟩ | ⟨-, rfl⟩ := execCount_cases h
  · exact .inl rfl
  · exact .inr rfl

theorem execRdcode_err {b : Byte} {s t : State} (h : execRdcode b s = .next t) : t.err = 0 ∨ t.err = 3 := by
  obtain ⟨-, rfl⟩ | ⟨w, -, -, rfl⟩ | ⟨w, -, -, rfl⟩ := execRdcode_cases h
  · exact .inl rfl
  · exact .inl rfl
  · exact .inr rfl

theorem execEncode_err {s t : State} (h : execEncode s = .next t) :
    t.err = 0 ∨ t.err = 2 ∨ t.err = 3 ∨ t.err = 4 := by
  obtain ⟨-, rfl⟩ | ⟨-, -, rfl⟩ | ⟨-, -, -, rfl⟩ | ⟨tr, e, -, -, -, he, rfl⟩ | ⟨tr, -, -, -, -, rfl⟩ :=
    execEncode_cases h
  · exact .inl rfl
  · exact .inr (.inl rfl)
  · exact .inl rfl
  · exact .inr (.inr (outputError_code he))
  · exact .inl rfl

theorem execDecode_err {s t : State} (h : execDecode s = .next t) :
    t.err = 0 ∨ t.err = 2 ∨ t.err = 3 ∨ t.err = 4 := by
  obtain ⟨-, rfl⟩ | ⟨-, -, -, rfl⟩ | ⟨tr, e, -, -, -, he, rfl⟩ | ⟨tr, -, -, -, -, rfl⟩ := execDecode_cases h
  · exact .inl rfl
  · exact .inr (.inl rfl)
  · exact .inr (.inr (outputError_code he))
  · exact .inl rfl

/-! ### States that raise them -/

/-- The one-byte text "0" at address 0, the tree and the code of that text, and LEN = 1: the text encodes to one
character and decodes to one byte. -/
def oneSymbol (src dst : Word) : State :=
  { State.reset with
    src := src, len := 1, dst := dst, mem := [(0, 0x30)],
    tree := some { arena := [.leaf 1 0x30], root := 0 }, code := codeSet noCodes 0x30 [false] }

theorem oneSymbol_len_ne_zero (src dst : Word) : (oneSymbol src dst).len ≠ 0 := (by decide : (1 : Word) ≠ 0)

theorem inputText_length_oneSymbol (dst : Word) : (inputText (oneSymbol 0 dst)).length = 1 := rfl

/-- An input of one byte at the last address of the address space. -/
theorem oneSymbol_srcOutOfRange : ¬ srcInRange (oneSymbol 0xFFFFFFFF 0) := by decide

theorem oneSymbol_srcInRange (dst : Word) : srcInRange (oneSymbol 0 dst) := .inr (by decide : 0 + 1 ≤ 65536)

/-- A nonempty output at the last address of the address space. -/
theorem oneSymbol_dstOutOfRange {n : Nat} (hn : 1 ≤ n) : ¬ dstInRange (oneSymbol 0 0xFFFFFFFF) n := by
  show ¬ (n = 0 ∨ 4294967295 + n ≤ 65536)
  omega

theorem oneSymbol_dstRange {n : Nat} (hn : 1 ≤ n) : outputError (oneSymbol 0 0xFFFFFFFF) n = some .dstRange :=
  outputError_dstRange (oneSymbol_dstOutOfRange hn)

/-- An output at the address of the input, short enough for the buffer. -/
theorem oneSymbol_overlap {n : Nat} (hn : 1 ≤ n) (hfits : n ≤ 255) :
    outputError (oneSymbol 0 0) n = some .overlap := by
  have hdst : n = 0 ∨ 0 + n ≤ 65536 := by omega
  have hover : 0 < 1 ∧ 0 < n ∧ 0 < 0 + n ∧ 0 < 0 + 1 := by omega
  exact outputError_overlap hdst hover

/-- The encoding of a nonempty text is not empty. -/
theorem enc_length_pos {c : Config} {t : Text} {tr : HeldTree} (ht : t.length < 2 ^ 32) (hne : t ≠ [])
    (hb : build c (count t) = some tr) : 1 ≤ (enc t (codes tr.arena tr.root)).length := by
  obtain ⟨b, u, rfl⟩ := List.exists_cons_of_ne_nil hne
  obtain ⟨p, hp, hpos, -⟩ :=
    exists_codeword_of_present hb (mem_presentBytes_count ht c.symOrder List.mem_cons_self)
  rw [enc_cons_some hp, List.length_append, chars_length]
  omega

/-- The codeword of the one symbol has one bit, which does not fit at the last address. -/
theorem oneSymbol_rdcode : ∃ t, exec (.rdcode 0x30) (oneSymbol 0 0xFFFFFFFF) = .next t ∧ t.err = 3 := by
  have hcode : codeAt (oneSymbol 0 0xFFFFFFFF).code 0x30 = some [false] := (codeAt_codeSet _ _ _ _).trans (if_pos rfl)
  exact ⟨_, execRdcode_out hcode (oneSymbol_dstOutOfRange le_rfl), rfl⟩

section
variable {dst : Word} {e : CmdError}

/-- An error that every output of 1 to 255 bytes raises is one that ENCODE ends in. -/
theorem oneSymbol_encode (he : ∀ n, 1 ≤ n → n ≤ 255 → outputError (oneSymbol 0 dst) n = some e) :
    ∃ t, exec .encode (oneSymbol 0 dst) = .next t ∧ t.err = e.code := by
  have hlen := oneSymbol_len_ne_zero 0 dst
  have hfits := inputText_length_lt (oneSymbol 0 dst)
  obtain ⟨tr, hb⟩ := exists_build_inputText hlen
  have hmost := enc_length_le hfits hb
  rw [inputText_length_oneSymbol] at hmost
  exact ⟨_, execEncode_error hlen (oneSymbol_srcInRange dst) hb
    (he _ (enc_length_pos hfits (inputText_ne_nil hlen) hb) hmost), rfl⟩

/-- An error that an output of one byte raises is one that DECODE ends in. -/
theorem oneSymbol_decode (he : outputError (oneSymbol 0 dst) 1 = some e) :
    ∃ t, exec .decode (oneSymbol 0 dst) = .next t ∧ t.err = e.code := by
  have hone : (dec (inputText (oneSymbol 0 dst)) [.leaf 1 0x30] 0).length = 1 := rfl
  rw [← hone] at he
  exact ⟨_, execDecode_error (s := oneSymbol 0 dst) rfl (oneSymbol_len_ne_zero 0 dst) (oneSymbol_srcInRange dst) he,
    rfl⟩

end

/-- Settles O36: the ends of each command bound its codes, and a one-byte text raises each of them, by an input outside
the buffer, an output outside it, or an output at the input's address. -/
theorem errorCodesOfCommands : Obligations.ErrorCodesOfCommands := by
  refine ⟨?noneRaised, fun s t => execCount_err, fun b s t => execRdcode_err,
    fun s t h => h.elim execEncode_err execDecode_err, ⟨_, _, execCount_out oneSymbol_srcOutOfRange, rfl⟩,
    ⟨_, _, oneSymbol_rdcode⟩, ?raised⟩
  case noneRaised =>
    rintro s t (h | h | h | ⟨b, h⟩)
    · cases h; rfl
    · cases h; rfl
    · exact execBuild_err h
    · cases h; rfl
  case raised =>
    rintro e (rfl | rfl | rfl)
    · have hlen := oneSymbol_len_ne_zero 0xFFFFFFFF 0
      exact ⟨⟨_, _, execEncode_out hlen oneSymbol_srcOutOfRange, rfl⟩,
        ⟨oneSymbol 0xFFFFFFFF 0, _, execDecode_out rfl hlen oneSymbol_srcOutOfRange, rfl⟩⟩
    · exact ⟨⟨_, oneSymbol_encode fun n hn _ => oneSymbol_dstRange hn⟩,
        ⟨_, oneSymbol_decode (oneSymbol_dstRange le_rfl)⟩⟩
    · exact ⟨⟨_, oneSymbol_encode fun n => oneSymbol_overlap⟩,
        ⟨_, oneSymbol_decode (oneSymbol_overlap le_rfl (by decide))⟩⟩

/-! ### The order of the checks (R194) -/

/-- The code of an end follows the order of the checks on the input and on an output of length RESULT. -/
def ChecksInOrder (s t : State) : Prop :=
  (t.err = 2 ↔ ¬ srcInRange s) ∧
  (t.err = 3 ↔ srcInRange s ∧ ¬ dstInRange s t.result.toNat) ∧
  (t.err = 4 ↔ srcInRange s ∧ dstInRange s t.result.toNat ∧ overlap s t.result.toNat) ∧
  (t.err = 0 ↔ srcInRange s ∧ dstInRange s t.result.toNat ∧ ¬ overlap s t.result.toNat)

section
variable {s t : State}

theorem checksInOrder_srcRange (hsrc : ¬ srcInRange s) (r : Word) : ChecksInOrder s (raiseCmdError s .srcRange r) := by
  simp [ChecksInOrder, CmdError.code, eq_false hsrc]

/-- An error of the output checks, RESULT being the exact length of the output. -/
theorem checksInOrder_error (hsrc : srcInRange s) {r : Word} {e : CmdError} (he : outputError s r.toNat = some e) :
    ChecksInOrder s (raiseCmdError s e r) := by
  obtain ⟨rfl, hdst⟩ | ⟨rfl, hdst, hover⟩ := outputError_some he
  · simp [ChecksInOrder, CmdError.code, eq_true hsrc, eq_false hdst]
  · simp [ChecksInOrder, CmdError.code, eq_true hsrc, eq_true hdst, eq_true hover]

/-- An output that passes its checks, RESULT being its exact length. -/
theorem checksInOrder_output (hsrc : srcInRange s) (hnone : outputError s t.result.toNat = none) (herr : t.err = 0) :
    ChecksInOrder s t := by
  obtain ⟨hdst, hover⟩ := outputError_none.mp hnone
  simp [ChecksInOrder, herr, eq_true hsrc, eq_true hdst, eq_false hover]

end

theorem toNat_ofNat_of_lt {n : Nat} (h : n < 2 ^ 32) : (BitVec.ofNat 32 n).toNat = n := by
  rw [BitVec.toNat_ofNat, Nat.mod_eq_of_lt h]

/-- At most 2^24 bytes with at most 255 bits each: the encoding's length fits in RESULT (R7). -/
theorem enc_inputText_length_lt {s : State} {tr : HeldTree} (hcfg : s.cfg.wf = true) (hsrc : srcInRange s)
    (hb : build s.cfg (count (inputText s)) = some tr) :
    (enc (inputText s) (codes tr.arena tr.root)).length < 2 ^ 32 := by
  have hmost := enc_length_le (inputText_length_lt s) hb
  have hbytes := (len_le_memBytes hsrc).trans (memBytes_le_of_wf hcfg)
  rw [inputText_length] at hmost
  omega

/-- DECODE writes at most one byte for each byte of its input, so the output's length fits in RESULT. -/
theorem dec_inputText_length_lt (s : State) (arena : List Node) (root : Nat) :
    (dec (inputText s) arena root).length < 2 ^ 32 :=
  ((dec_length_le _ _ _).trans List.countP_le_length).trans_lt (inputText_length_lt s)

theorem execEncode_checksInOrder {s t : State} (hcfg : s.cfg.wf = true) (hlen : s.len ≠ 0)
    (ht : execEncode s = .next t) : ChecksInOrder s t := by
  obtain ⟨hempty, -⟩ | ⟨-, hsrc, rfl⟩ | ⟨-, -, hnone, -⟩ | ⟨tr, e, -, hsrc, hb, he, rfl⟩ | ⟨tr, -, hsrc, hb, he, rfl⟩ :=
    execEncode_cases ht
  · exact absurd hempty hlen
  · exact checksInOrder_srcRange hsrc 0
  · obtain ⟨tr, hb⟩ := exists_build_inputText hlen
    rw [hnone] at hb
    cases hb
  · refine checksInOrder_error hsrc ?_
    rwa [toNat_ofNat_of_lt (enc_inputText_length_lt hcfg hsrc hb)]
  · refine checksInOrder_output hsrc ?_ rfl
    rwa [commitOutput_result, toNat_ofNat_of_lt (enc_inputText_length_lt hcfg hsrc hb)]

theorem execDecode_checksInOrder {s t : State} (htree : s.tree ≠ none) (hlen : s.len ≠ 0)
    (ht : execDecode s = .next t) : ChecksInOrder s t := by
  obtain ⟨hnothing, -⟩ | ⟨-, -, hsrc, rfl⟩ | ⟨tr, e, -, -, hsrc, he, rfl⟩ | ⟨tr, -, -, hsrc, he, rfl⟩ :=
    execDecode_cases ht
  · exact absurd hnothing (not_or_intro htree hlen)
  · exact checksInOrder_srcRange hsrc 0
  · refine checksInOrder_error hsrc ?_
    rwa [toNat_ofNat_of_lt (dec_inputText_length_lt s _ _)]
  · refine checksInOrder_output hsrc ?_ rfl
    rwa [commitOutput_result, toNat_ofNat_of_lt (dec_inputText_length_lt s _ _)]

/-- Settles O37: RESULT is the exact length of the output, so the checks on the output are checks on RESULT. -/
theorem orderOfChecks : Obligations.OrderOfChecks := by
  refine ⟨fun s w why hbusy hill => ⟨_, blockTurn_illegal hbusy hill, rfl⟩, fun b s t ht habsent => ?absent,
    fun s t h => ?empty, fun s t hinv h => ?ordered⟩
  case absent =>
    cases ht.symm.trans (execRdcode_none habsent)
    exact ⟨rfl, rfl⟩
  case empty =>
    obtain ⟨ht, hempty⟩ | ⟨ht, hnothing⟩ := h
    · cases ht.symm.trans (execEncode_empty hempty)
      exact ⟨rfl, rfl⟩
    · cases ht.symm.trans (execDecode_nothing hnothing)
      exact ⟨rfl, rfl⟩
  case ordered =>
    obtain ⟨ht, hlen⟩ | ⟨ht, htree, hlen⟩ := h
    · exact execEncode_checksInOrder hinv.config hlen ht
    · exact execDecode_checksInOrder htree hlen ht

/-! ### The step that runs a command (R196) -/

theorem step_unscheduled {s : State} (hc : s.cfg.wf = true) (he : s.events = []) : step s = blockTurn s := by
  simp [step, nextEvent, hc, he]

theorem withFetchWord_toNat (s : State) (w : Word) : s.withFetchWord 32 w.toNat = placeCommand s w := by
  rw [State.withFetchWord, Nat.mod_eq_of_lt w.isLt, BitVec.ofNat_toNat, BitVec.setWidth_eq]

/-- Settles O38: in each case the step is the block's turn on the decoded word; placing a command leaves nothing
scheduled. -/
theorem stepRunsDecodedCommand : Obligations.StepRunsDecodedCommand := by
  intro s w i hcfg hdec
  refine ⟨fun hbusy hnone => ?unscheduled, fun es hbusy hevents => ?scheduled, ?placed⟩
  case unscheduled => exact (step_unscheduled hcfg hnone).trans (blockTurn_instr hbusy hdec)
  case scheduled => exact (step_block hcfg hevents).trans (blockTurn_instr hbusy hdec)
  case placed =>
    rw [withFetchWord_toNat]
    exact (step_unscheduled (s := placeCommand s w) hcfg rfl).trans (blockTurn_instr rfl hdec)

end Sys2Proof.Machine

/-! PROOFS. Reset and hazards (70_reset_and_hazards.md): power-on reset (R221), how the RESET command differs from it
(R223), and the completion of every command (R226). -/

namespace Sys2Proof.Machine

/-! ### Power-on reset (R221) -/

/-- A byte nothing has written since the last power-on reset reads as its free value (10_state.md R46). -/
theorem readByte_of_mem_nil {s : State} (h : s.mem = []) (a : Nat) :
    s.readByte a = Config.powerOnByte s.powerOns a := by
  rw [State.readByte, h]
  rfl

/-- Settles O54: the reset state does not depend on `busy`, and its buffer holds no written byte. -/
theorem powerOnAbandonsCommand : Obligations.PowerOnAbandonsCommand :=
  fun _ _ hcfg hevents => ⟨_, step_powerOn hcfg hevents, rfl, readByte_of_mem_nil rfl⟩

/-! ### The RESET command and power-on reset (R223) -/

/-- RESET, accepted on an idle block and completed (43_control.md R182). -/
theorem blockTurn_accepted_reset (s : State) :
    blockTurn (acceptCommand s (encode .reset)) =
      .next (complete { acceptCommand s (encode .reset) with hist := noCounts, code := noCodes, tree := none } 0) :=
  (blockTurn_instr rfl (decode_encode .reset)).trans (exec_reset _)

/-- Settles O7: RESET changes neither the operands nor the buffer, and the rest of the record it leaves, with the
DROP = 0 of its acceptance and the `busy` of the idle block, is that of a power-on reset. -/
theorem resetCommandAndPowerOnDiffer : Obligations.ResetCommandAndPowerOnDiffer := by
  intro s hidle
  obtain ⟨haccept, -, -⟩ := cmdWriteAcceptedWhenIdle s (encode .reset)
  exact ⟨_, _, haccept hidle, blockTurn_accepted_reset s, rfl, rfl, rfl, fun a => readByte_congr rfl rfl,
    rfl, rfl, rfl, rfl, rfl, rfl, rfl⟩

/-! ### Completion (R226) -/

/-- The block's turn has no other outcome than a next state; it leaves the block idle and the schedule as it was. -/
theorem blockTurn_completes (s : State) : ∃ t, blockTurn s = .next t ∧ t.busy = none ∧ t.events = s.events := by
  cases hbusy : s.busy with
  | none => exact ⟨s, blockTurn_idle hbusy, hbusy, rfl⟩
  | some w =>
    cases hdec : decode w with
    | illegal why => exact ⟨_, blockTurn_illegal hbusy hdec, rfl, rfl⟩
    | instr i =>
      obtain ⟨t, hexec, -⟩ := exec_bookkeeping i s s.drop s.events s.seen s.draws
      refine ⟨t, (blockTurn_instr hbusy hdec).trans hexec, ?_⟩
      rw [exec_frame hexec]
      exact ⟨rfl, rfl⟩

/-- Settles O39: with nothing scheduled the step is the block's turn. -/
theorem everyCommandCompletes : Obligations.EveryCommandCompletes := by
  intro s hcfg hnone
  obtain ⟨t, hturn, hidle, hevents⟩ := blockTurn_completes s
  exact ⟨t, (step_unscheduled hcfg hnone).trans hturn, hidle, hevents.trans hnone⟩

end Sys2Proof.Machine
